-- ==== Sys2Proof/Word.lean ====
section
/-! DEFINITION. The command word and the alphabets of spec/00_scope.md R11: symbols, levels, and the names of the
schemes and scrambler modes. Polarity, parity and level bits are `Bool`, with `true` for the bit value 1. -/

namespace Sys2Proof

/-- A command word: 8 bits, bit 0 least significant (R9, R61). -/
abbrev Word := BitVec 8

/-- The extended symbol alphabet `0 1 + -` (R11, R63). -/
inductive Symbol where
  | zero
  | one
  | plus
  | minus
deriving DecidableEq, Repr

/-- A signal level `+1`, `0` or `-1` (R11, R64). The level code `0b10` is never driven, so it has no constructor
(spec/93_implementation_defined.md U8). -/
inductive Level where
  | pos
  | zero
  | neg
deriving DecidableEq, Repr

/-- The five line-encoding schemes (R2, R65). -/
inductive Scheme where
  | nrzL
  | nrzI
  | manchester
  | diffManchester
  | ami
deriving DecidableEq, Repr

/-- The three recognised scramble modes (R66). -/
inductive ScrMode where
  | none
  | b8zs
  | hdb3
deriving DecidableEq, Repr

end Sys2Proof
end

