-- ==== Sys2Proof/Config.lean ====
section
/-! DEFINITION. The fixed implementation parameters of spec/00_scope.md R8. LENC leaves no value free, so there is no
opaque constant here. -/

namespace Sys2Proof.Config

/-- `NUM_SCHEMES` (R8): scheme codes from 0 to 4 are recognised. -/
def numSchemes : Nat := 5

/-- `B8ZS_RUN` (R8, R100): the length of the zero run B8ZS substitutes. -/
def b8zsRun : Nat := 8

/-- `HDB3_RUN` (R8, R100): the length of the zero run HDB3 substitutes. -/
def hdb3Run : Nat := 4

/-- `DL_DEPTH` (R8, R28): the entries the delay line can hold. -/
def dlDepth : Nat := 8

/-- `OUTQ_CAP` (R8, R34, R170): the most beats the output queue ever holds. -/
def outqCap : Nat := 9

end Sys2Proof.Config
end

