-- ==== Sys2Proof/Syntax.lean ====
section
/-! DEFINITION. The commands, one constructor for each row of spec/opcode_table.json. -/

namespace Sys2Proof

/-- A well-formed command (R61, R76). The operands of START are the raw field codes, recognised or not (R62): a START
whose codes are no valid configuration is still a START and fails when it is performed (R84). -/
inductive Instr where
  /-- NOP (R81). -/
  | nop
  /-- START with `scr = c[5:4]` and `scheme = c[2:0]` (R62, R82). -/
  | start (scr : BitVec 2) (scheme : BitVec 3)
  /-- SYM 0, the table's `SYM_0` (R85). -/
  | sym0
  /-- SYM 1, the table's `SYM_1` (R85). -/
  | sym1
  /-- SYM +, the table's `SYM_+` (R85). -/
  | symPlus
  /-- SYM -, the table's `SYM_-` (R85). -/
  | symMinus
  /-- END (R90). -/
  | endFrame
deriving DecidableEq, Repr

end Sys2Proof
end

