-- ==== Sys2Proof/WellFormed.lean ====
section
/-! DEFINITION. Which command words are well-formed: every reserved bit of spec/30_encoding.md R61 is 0 (R68).

Written from the match and mask columns of spec/opcode_table.json and not through the decoder, so that the decoder can be
held against it. A term of `Instr` needs no further check: the operands of START have exactly the widths of their fields
(R62), and no other command has an operand. -/

namespace Sys2Proof

/-- The NOP word, every bit of `c[5:0]` reserved (R61). -/
def nopWord (c : Word) : Bool := c &&& 0xFF#8 == 0x00#8

/-- A START word, `c[3]` reserved (R61). -/
def startWord (c : Word) : Bool := c &&& 0xC8#8 == 0x40#8

/-- A SYM word, `c[5:2]` reserved (R61). -/
def symWord (c : Word) : Bool := c &&& 0xFC#8 == 0x80#8

/-- The END word, every bit of `c[5:0]` reserved (R61). -/
def endWord (c : Word) : Bool := c &&& 0xFF#8 == 0xC0#8

/-- R68: a word with no reserved bit set. -/
def wordWellFormed (c : Word) : Bool := nopWord c || startWord c || symWord c || endWord c

end Sys2Proof
end

