-- ==== Sys2Proof/Decode.lean ====
section
/-! DEFINITION. The encodings of spec/30_encoding.md: the symbol, scheme and scramble-mode codes (R63, R65, R66), the
decoder (R76), and the encoder written from the same tables (R61, R62, R74). -/

namespace Sys2Proof

/-- The op field of a command word (R61). -/
inductive Op where
  | nop
  | start
  | sym
  | endFrame
deriving DecidableEq, Repr

/-- R61: the four op values of `c[7:6]`. -/
def opOf (b : BitVec 2) : Op :=
  if b = 0b00#2 then .nop else if b = 0b01#2 then .start else if b = 0b10#2 then .sym else .endFrame

/-- R63: the code of a symbol. -/
def Symbol.code : Symbol → BitVec 2
  | .zero => 0b00#2
  | .one => 0b01#2
  | .plus => 0b10#2
  | .minus => 0b11#2

/-- R63: the symbol of a code; every code names one. -/
def Symbol.ofCode (b : BitVec 2) : Symbol :=
  if b = 0b00#2 then .zero else if b = 0b01#2 then .one else if b = 0b10#2 then .plus else .minus

/-- R65: the code of a scheme. -/
def Scheme.code : Scheme → BitVec 3
  | .nrzL => 0b000#3
  | .nrzI => 0b001#3
  | .manchester => 0b010#3
  | .diffManchester => 0b011#3
  | .ami => 0b100#3

/-- R65: the scheme of a code; 5, 6 and 7 are unrecognised. -/
def Scheme.ofCode (k : BitVec 3) : Option Scheme :=
  if k = 0b000#3 then some .nrzL
  else if k = 0b001#3 then some .nrzI
  else if k = 0b010#3 then some .manchester
  else if k = 0b011#3 then some .diffManchester
  else if k = 0b100#3 then some .ami
  else none

/-- R66: the code of a scramble mode. -/
def ScrMode.code : ScrMode → BitVec 2
  | .none => 0b00#2
  | .b8zs => 0b01#2
  | .hdb3 => 0b10#2

/-- R66: the scramble mode of a code; 3 is unrecognised. -/
def ScrMode.ofCode (m : BitVec 2) : Option ScrMode :=
  if m = 0b00#2 then some .none
  else if m = 0b01#2 then some .b8zs
  else if m = 0b10#2 then some .hdb3
  else Option.none

/-- The SYM command that carries a symbol (R63, R85). -/
def symInstr : Symbol → Instr
  | .zero => .sym0
  | .one => .sym1
  | .plus => .symPlus
  | .minus => .symMinus

/-- What a command word decodes to: a command, or MALFORMED with the op whose reserved bits are not all 0 (R68, R76). -/
inductive Decoded where
  | instr (i : Instr)
  | malformed (op : Op)
deriving DecidableEq, Repr

/-- R76: the decoder, total on all 256 words. -/
def decode (c : Word) : Decoded :=
  match opOf (c.extractLsb' 6 2) with
  | .nop => if c.extractLsb' 0 6 = 0#6 then .instr .nop else .malformed .nop
  | .start => if c.extractLsb' 3 1 = 0#1 then .instr (.start (c.extractLsb' 4 2) (c.extractLsb' 0 3)) else .malformed .start
  | .sym => if c.extractLsb' 2 4 = 0#4 then .instr (symInstr (Symbol.ofCode (c.extractLsb' 0 2))) else .malformed .sym
  | .endFrame => if c.extractLsb' 0 6 = 0#6 then .instr .endFrame else .malformed .endFrame

/-- The word of a command (R61, R62, R63, R74): fields from bit 7 down. -/
def encode : Instr → Word
  | .nop => 0b00#2 ++ 0b000000#6
  | .start m k => 0b01#2 ++ m ++ 0b0#1 ++ k
  | .sym0 => 0b10#2 ++ 0b0000#4 ++ 0b00#2
  | .sym1 => 0b10#2 ++ 0b0000#4 ++ 0b01#2
  | .symPlus => 0b10#2 ++ 0b0000#4 ++ 0b10#2
  | .symMinus => 0b10#2 ++ 0b0000#4 ++ 0b11#2
  | .endFrame => 0b11#2 ++ 0b000000#6

/-- The first command word of an instruction given as `nbits` bits numbered from 0 (every LENC command is one 8-bit
word, R61); the bits above `nbits` are 0. -/
def tableWord (nbits w : Nat) : Word := BitVec.ofNat 8 (w % 2 ^ nbits)

/-- The command the decoder reads from a word of spec/opcode_table.json; none where the word is malformed. -/
def decodeTableWord (nbits w : Nat) : Option Instr :=
  match decode (tableWord nbits w) with
  | .instr i => some i
  | .malformed _ => none

end Sys2Proof
end

