-- ==== Sys2Proof/Machine/State.lean ====
section
/-! DEFINITION. The state of LENC: the tuple of spec/10_state.md R20, the output queue `Q` (R34), and two fields of the
model's own that stand for the host's side of the ports. A state is the machine DURING one clock cycle; a step is the
rising edge of `clk` that ends the cycle. -/

namespace Sys2Proof.Machine

/-- `fsm` (R22). The code `0b11` is never held, so it has no constructor (U9). -/
inductive Fsm where
  /-- `0b00`: no frame is open. -/
  | idle
  /-- `0b01`: a frame is open and no error has occurred in it. -/
  | active
  /-- `0b10`: a frame is open and has failed. -/
  | error
deriving DecidableEq, Repr

/-- The error codes (R140). -/
inductive ErrCode where
  | none
  | invalidScheme
  | invalidSymbol
  | invalidCommand
deriving DecidableEq, Repr

/-- The one or two levels of a Data beat, in time order (R51, R69). -/
inductive Levels where
  | one (l0 : Level)
  | two (l0 l1 : Level)
deriving DecidableEq, Repr

/-- An output beat (R20, R69, R70). -/
inductive Beat where
  | data (sym : Symbol) (levels : Levels)
  | done (err : ErrCode)
deriving DecidableEq, Repr

/-- What the host drives on the input ports in one cycle (R60). -/
structure Pins where
  rst : Bool
  cmdValid : Bool
  cmd : Word
deriving DecidableEq, Repr

/-- The input ports of a cycle in which the host asks for nothing. -/
def Pins.quiet : Pins := { rst := false, cmdValid := false, cmd := 0 }

structure State where
  /-- `fsm`, 2 bits (R22). -/
  fsm : Fsm
  /-- `scheme`, 3 bits: the raw selector of the last START, recognised or not (R23). -/
  scheme : BitVec 3
  /-- `scr`, 2 bits: the raw scramble-mode selector of the last START (R24). -/
  scr : BitVec 2
  /-- `last_pol`, 1 bit: the scrambler's polarity, true for `+` (R25). -/
  lastPol : Bool
  /-- `zero_cnt`, 4 bits (R26). -/
  zeroCnt : BitVec 4
  /-- `ones_par`, 1 bit (R27). -/
  onesPar : Bool
  /-- `DL`, 0 to 8 symbols, oldest first (R28). -/
  dl : List Symbol
  /-- `enc_lvl`, 1 bit: false for level +1, true for level -1 (R29). -/
  encLvl : Bool
  /-- `ami_pos`, 1 bit: true when the last AMI pulse was +1 (R30). -/
  amiPos : Bool
  /-- `err_code`, 2 bits (R31). -/
  errCode : ErrCode
  /-- `err_idx`, 16 bits (R32). -/
  errIdx : BitVec 16
  /-- `sym_cnt`, 16 bits (R33). -/
  symCnt : BitVec 16
  /-- `Q`, 0 to 9 beats; the head is on the output port in this cycle (R34, R169). -/
  q : List Beat
  /-- The model's own: what the host drives on the input ports in this cycle (the head) and in the cycles after it. Past
  the end of the list the host is quiet. DESIGN CHOICE (log entry 1). -/
  host : List Pins
  /-- The model's own: the beats presented on the output port in the cycles that have ended, oldest first; with `q` it
  is the observation of R20. The machine never reads it. DESIGN CHOICE (log entry 2). -/
  presented : List Beat
deriving DecidableEq, Repr

/-- Why a step stops with a fault. No state that a run from reset reaches raises one. -/
inductive Fault where
  /-- Raised by the encoder step when it meets a scheme code of 5 to 7, or a forced pulse under a scheme other than AMI:
  R120 says that no rule reaches this and that a model that meets one should fault (U10). Safe: the hardware never gets
  there. -/
  | encoderAssertion (scheme : BitVec 3) (d : Symbol)
  /-- Raised by the scrambler step when it meets the scramble code 3, for which R66 gives no depth, or a forced pulse,
  which R100 excludes. Safe: R83 and R88 let neither through. -/
  | scramblerAssertion (scr : BitVec 2) (d : Symbol)
  /-- Raised by the scrambler step when it would make the delay line longer than 8 entries, which R36 says never happens
  (U9). Safe: the hardware never gets there. -/
  | delayLineOverflow
deriving DecidableEq, Repr

/-- Why a step refuses. -/
inductive Refusal where
  /-- Raised by `exec` for a command that has no meaning in the model. Every command of the table has one, so nothing
  raises it. Safe. -/
  | notModelled (mnemonic : String)
deriving DecidableEq, Repr

/-- R161: the state right after a reset edge. The model's own two fields start empty: the host has asked for nothing and
nothing has been presented. -/
def State.reset : State where
  fsm := .idle
  scheme := 0
  scr := 0
  lastPol := false
  zeroCnt := 0
  onesPar := false
  dl := []
  encLvl := false
  amiPos := false
  errCode := .none
  errIdx := 0
  symCnt := 0
  q := []
  host := []
  presented := []

/-- The three outcomes of one step of LENC. -/
abbrev Result := Host.Outcome State Fault Refusal

end Sys2Proof.Machine
end

