-- ==== Sys2Proof/Machine/Flags.lean ====
section
/-! DEFINITION. The polarity, level and parity computations of the rules (spec/00_scope.md R10). -/

namespace Sys2Proof.Machine

/-- R10: the negation of a level. -/
def neg : Level → Level
  | .pos => .neg
  | .zero => .zero
  | .neg => .pos

/-- R10: the forced-pulse symbol of a polarity bit. -/
def polsym (p : Bool) : Symbol := if p then .plus else .minus

/-- `x XOR 1` on a 1-bit value (R9). -/
def xor1 (b : Bool) : Bool := !b

/-- R29: the level `enc_lvl` stands for. -/
def lineLevel (encLvl : Bool) : Level := if encLvl then .neg else .pos

end Sys2Proof.Machine
end

