-- ==== Sys2Proof/Machine/Operands.lean ====
section
/-! DEFINITION. What the operand fields of a command select: the valid frame configurations (spec/30_encoding.md R67,
spec/40_frame_control.md R83), the symbols a frame accepts (R88), and the depth of a scramble mode (R100). -/

namespace Sys2Proof.Machine

/-- R83: `valid(k, m)`, the seven pairs of R67. -/
def validConfig (k : BitVec 3) (m : BitVec 2) : Bool :=
  k ≤ 0b100#3 && m != 0b11#2 && (m == 0b00#2 || k == 0b100#3)

/-- A forced-polarity pulse, `+` or `-` (R63, R88). -/
def forced : Symbol → Bool
  | .zero => false
  | .one => false
  | .plus => true
  | .minus => true

/-- R88: does an ACTIVE frame of scheme `k` and scramble mode `m` accept the symbol? The forced pulses are accepted
only by AMI without a scrambler. -/
def accepts (k : BitVec 3) (m : BitVec 2) (d : Symbol) : Bool :=
  !forced d || (k == Scheme.code .ami && m == ScrMode.code .none)

/-- R66, R100: the active delay-line depth and run length N of a scramble mode. -/
def depth : ScrMode → Nat
  | .none => 0
  | .b8zs => Config.b8zsRun
  | .hdb3 => Config.hdb3Run

end Sys2Proof.Machine
end

