-- ==== Sys2Proof/Machine/Ops.lean ====
section
/-! DEFINITION. The named operations over the state that the commands share: sequencing, emitting a beat, the reset of a
frame's registers, counting a symbol, ERROR ENTRY (LENC's form of taking an exception, spec/60_exceptions.md R141) and
the two exits from an open frame, and a malformed word (R146). -/

namespace Sys2Proof.Machine

/-- `seq:` of R10: the second part runs on the state the first part leaves. -/
def andThen (r : Result) (f : State → Result) : Result :=
  match r with
  | .next s => f s
  | .fault e => .fault e
  | .refused e => .refused e

/-- The state of a `next`, for tests and statements. -/
def nextOf : Result → Option State
  | .next s => some s
  | .fault _ => none
  | .refused _ => none

/-- R10, R169: append one beat to the beats of this step, and so to the output queue. -/
def emit (b : Beat) (s : State) : State := { s with q := s.q ++ [b] }

/-- R141: error entry. Four registers are written and no beat is emitted. -/
def errorEntry (e : ErrCode) (idx : BitVec 16) (s : State) : State :=
  { s with fsm := .error, errCode := e, errIdx := idx, dl := [] }

/-- R91: the return from ERROR to IDLE; the error registers stay readable. -/
def errorExit (s : State) : State := { s with fsm := .idle }

/-- R90: the end of a frame that has been flushed. -/
def closeFrame (s : State) : State := { s with fsm := .idle, dl := [] }

/-- R92: the error registers of an END with no frame open; `fsm` stays IDLE. -/
def noteStrayEnd (s : State) : State := { s with errCode := .invalidCommand, errIdx := s.symCnt }

/-- R82: START reinitialises every register of the frame. -/
def openFrame (m : BitVec 2) (k : BitVec 3) (s : State) : State :=
  { s with
    fsm := .active, scheme := k, scr := m
    lastPol := false, zeroCnt := 0, onesPar := false, dl := []
    encLvl := false, amiPos := false
    errCode := .none, errIdx := 0, symCnt := 0 }

/-- R85: count one symbol, modulo 2^16. -/
def countSym (s : State) : State := { s with symCnt := s.symCnt + 1 }

/-- R146: a malformed word is ignored in ERROR and raises InvalidCommand otherwise. -/
def malformedWord (s : State) : State :=
  match s.fsm with
  | .error => s
  | .idle => errorEntry .invalidCommand s.symCnt s
  | .active => errorEntry .invalidCommand s.symCnt s

end Sys2Proof.Machine
end

