-- ==== Sys2Proof/Machine/Encoder.lean ====
section
/-! DEFINITION. The line encoder of spec/42_line_encoder.md: one symbol to one Data beat. -/

namespace Sys2Proof.Machine

/-- The assertion of R120: no rule reaches this encoder step (U10). -/
def encoderAssertion (d : Symbol) (s : State) : Result := .fault (.encoderAssertion s.scheme d)

/-- R121: NRZ-L. -/
def encNrzL (d : Symbol) (s : State) : Result :=
  match d with
  | .zero => .next (emit (.data .zero (.one .pos)) s)
  | .one => .next (emit (.data .one (.one .neg)) s)
  | .plus => encoderAssertion d s
  | .minus => encoderAssertion d s

/-- R122: NRZ-I. The level emitted is the one after the symbol's rule is applied. -/
def encNrzI (d : Symbol) (s : State) : Result :=
  match d with
  | .zero => .next (emit (.data .zero (.one (lineLevel s.encLvl))) s)
  | .one => .next (emit (.data .one (.one (lineLevel (xor1 s.encLvl)))) { s with encLvl := xor1 s.encLvl })
  | .plus => encoderAssertion d s
  | .minus => encoderAssertion d s

/-- R123: Manchester. -/
def encManchester (d : Symbol) (s : State) : Result :=
  match d with
  | .zero => .next (emit (.data .zero (.two .pos .neg)) s)
  | .one => .next (emit (.data .one (.two .neg .pos)) s)
  | .plus => encoderAssertion d s
  | .minus => encoderAssertion d s

/-- R124: Differential Manchester, with L the level carried in. -/
def encDiffManchester (d : Symbol) (s : State) : Result :=
  match d with
  | .zero => .next (emit (.data .zero (.two (neg (lineLevel s.encLvl)) (lineLevel s.encLvl))) s)
  | .one =>
    .next (emit (.data .one (.two (lineLevel s.encLvl) (neg (lineLevel s.encLvl)))) { s with encLvl := xor1 s.encLvl })
  | .plus => encoderAssertion d s
  | .minus => encoderAssertion d s

/-- R125 to R128: AMI. -/
def encAmi (d : Symbol) (s : State) : Result :=
  match d with
  | .zero => .next (emit (.data .zero (.one .zero)) s)
  | .one =>
    if s.amiPos then .next (emit (.data .one (.one .neg)) { s with amiPos := false })
    else .next (emit (.data .one (.one .pos)) { s with amiPos := true })
  | .plus => .next (emit (.data .plus (.one .pos)) { s with amiPos := true })
  | .minus => .next (emit (.data .minus (.one .neg)) { s with amiPos := false })

/-- R120: the encoder step on a symbol, under the frame's latched scheme. -/
def enc (d : Symbol) (s : State) : Result :=
  match Scheme.ofCode s.scheme with
  | some .nrzL => encNrzL d s
  | some .nrzI => encNrzI d s
  | some .manchester => encManchester d s
  | some .diffManchester => encDiffManchester d s
  | some .ami => encAmi d s
  | none => encoderAssertion d s

/-- R90: the encoder step on each symbol of a list, oldest first. -/
def flush : List Symbol → State → Result
  | [], s => .next s
  | d :: ds, s => andThen (enc d s) (flush ds)

end Sys2Proof.Machine
end

