-- ==== Sys2Proof/Machine/Scrambler.lean ====
section
/-! DEFINITION. The zero-run scrambler of spec/41_scrambler.md: the delay line, B8ZS and HDB3. -/

namespace Sys2Proof.Machine

/-- R105: the two B8ZS patterns, `000+-0-+` at negative and `000-+0+-` at positive polarity. The document's patterns, not
those of telecommunication standards (R116, U11, G2). -/
def b8zsPattern (lastPol : Bool) : List Symbol :=
  if lastPol then [.zero, .zero, .zero, .minus, .plus, .zero, .plus, .minus]
  else [.zero, .zero, .zero, .plus, .minus, .zero, .minus, .plus]

/-- R108: the HDB3 pattern `000V`. -/
def hdb3Odd (v : Bool) : List Symbol := [.zero, .zero, .zero, polsym v]

/-- R109: the HDB3 pattern `B00V`, B and V of one polarity. -/
def hdb3Even (v : Bool) : List Symbol := [polsym v, .zero, .zero, polsym v]

/-- R103: B8ZS, input `1`. -/
def b8zsOne (s : State) : State :=
  { s with zeroCnt := 0, lastPol := xor1 s.lastPol, dl := s.dl ++ [polsym (xor1 s.lastPol)] }

/-- R104, R107: the first two writes of an input `0`. -/
def pushZero (s : State) : State := { s with dl := s.dl ++ [.zero], zeroCnt := s.zeroCnt + 1 }

/-- R105: the B8ZS substitution. -/
def b8zsSubstitute (s : State) : State := { s with dl := b8zsPattern s.lastPol, zeroCnt := 0 }

/-- R104: B8ZS, input `0`. -/
def b8zsZero (s : State) : State :=
  if (pushZero s).zeroCnt.toNat = Config.b8zsRun then b8zsSubstitute (pushZero s) else pushZero s

/-- R106: HDB3, input `1`. -/
def hdb3One (s : State) : State :=
  { s with
    zeroCnt := 0, lastPol := xor1 s.lastPol, onesPar := xor1 s.onesPar
    dl := s.dl ++ [polsym (xor1 s.lastPol)] }

/-- R108, R109: the HDB3 substitution at odd and at even parity. -/
def hdb3Substitute (s : State) : State :=
  if s.onesPar then { s with dl := hdb3Odd s.lastPol, zeroCnt := 0, onesPar := false }
  else { s with lastPol := xor1 s.lastPol, dl := hdb3Even (xor1 s.lastPol), zeroCnt := 0, onesPar := false }

/-- R107: HDB3, input `0`. -/
def hdb3Zero (s : State) : State :=
  if (pushZero s).zeroCnt.toNat = Config.hdb3Run then hdb3Substitute (pushZero s) else pushZero s

/-- R102: the symbol that leaves a delay line of depth `n`, if the line is full. -/
def popped (n : Nat) (dl : List Symbol) : Option Symbol := if dl.length = n then dl.head? else none

/-- R102: the delay line after its oldest symbol has left, if the line is full. -/
def afterPop (n : Nat) (s : State) : State := { s with dl := if s.dl.length = n then s.dl.tail else s.dl }

/-- R102: the encoder step on the symbol that left, if one did. -/
def encPopped (d : Option Symbol) (s : State) : Result :=
  match d with
  | some d => enc d s
  | none => .next s

/-- R102: pop, scramble by `upd`, encode the popped symbol. The line never grows past its 8 entries (R36, U9). -/
def throughLine (n : Nat) (upd : State → State) (s : State) : Result :=
  if (afterPop n s).dl.length < Config.dlDepth then encPopped (popped n s.dl) (upd (afterPop n s))
  else .fault .delayLineOverflow

/-- The assertion of R100: no rule reaches this scrambler step. -/
def scramblerAssertion (d : Symbol) (s : State) : Result := .fault (.scramblerAssertion s.scr d)

/-- R102 in B8ZS mode. -/
def b8zsStep (d : Symbol) (s : State) : Result :=
  match d with
  | .zero => throughLine (depth .b8zs) b8zsZero s
  | .one => throughLine (depth .b8zs) b8zsOne s
  | .plus => scramblerAssertion d s
  | .minus => scramblerAssertion d s

/-- R102 in HDB3 mode. -/
def hdb3Step (d : Symbol) (s : State) : Result :=
  match d with
  | .zero => throughLine (depth .hdb3) hdb3Zero s
  | .one => throughLine (depth .hdb3) hdb3One s
  | .plus => scramblerAssertion d s
  | .minus => scramblerAssertion d s

/-- R89: an accepted symbol goes straight to the encoder (bypass, R101) or through the scrambler (R102). -/
def acceptedSymbol (d : Symbol) (s : State) : Result :=
  match ScrMode.ofCode s.scr with
  | some .none => enc d s
  | some .b8zs => b8zsStep d s
  | some .hdb3 => hdb3Step d s
  | none => scramblerAssertion d s

end Sys2Proof.Machine
end

