-- ==== Sys2Proof/Machine/Frame.lean ====
section
/-! DEFINITION. The meanings of the commands, one for each row of the opcode table (spec/40_frame_control.md). -/

namespace Sys2Proof.Machine

/-- NOP (R81). -/
def execNop (s : State) : Result := .next s

/-- START: reinitialise the frame (R82), then check its configuration (R83, R84). -/
def execStart (m : BitVec 2) (k : BitVec 3) (s : State) : Result :=
  if validConfig k m then .next (openFrame m k s)
  else .next (errorEntry .invalidScheme 0 (openFrame m k s))

/-- SYM with `fsm` ACTIVE: the alphabet check, then the symbol (R88, R89). -/
def symActive (d : Symbol) (idx : BitVec 16) (s : State) : Result :=
  if accepts s.scheme s.scr d then acceptedSymbol d s else .next (errorEntry .invalidSymbol idx s)

/-- SYM of any symbol: count it, then act on the frame's state (R85 to R89). The recorded index is the count before. -/
def symCommand (d : Symbol) (s : State) : Result :=
  match s.fsm with
  | .idle => .next (errorEntry .invalidCommand s.symCnt (countSym s))
  | .error => .next (countSym s)
  | .active => symActive d s.symCnt (countSym s)

/-- SYM 0 (R85). -/
def execSym0 (s : State) : Result := symCommand .zero s

/-- SYM 1 (R85). -/
def execSym1 (s : State) : Result := symCommand .one s

/-- SYM + (R85). -/
def execSymPlus (s : State) : Result := symCommand .plus s

/-- SYM - (R85). -/
def execSymMinus (s : State) : Result := symCommand .minus s

/-- END: flush and close the frame (R90), close a failed frame (R91), or report that none is open (R92). -/
def execEnd (s : State) : Result :=
  match s.fsm with
  | .active => andThen (flush s.dl s) fun t => .next (emit (.done .none) (closeFrame t))
  | .error => .next (emit (.done s.errCode) (errorExit s))
  | .idle => .next (emit (.done .invalidCommand) (noteStrayEnd s))

end Sys2Proof.Machine
end

