-- ==== Sys2Proof/Machine/Dispatch.lean ====
section
/-! DEFINITION. One command on one state (spec/40_frame_control.md R80): one arm for each command. -/

namespace Sys2Proof.Machine

def exec (i : Instr) (s : State) : Host.Outcome State Fault Refusal :=
  match i with
  | .nop => Sys2Proof.Machine.execNop s
  | .start m k => Sys2Proof.Machine.execStart m k s
  | .sym0 => Sys2Proof.Machine.execSym0 s
  | .sym1 => Sys2Proof.Machine.execSym1 s
  | .symPlus => Sys2Proof.Machine.execSymPlus s
  | .symMinus => Sys2Proof.Machine.execSymMinus s
  | .endFrame => Sys2Proof.Machine.execEnd s

end Sys2Proof.Machine
end

