-- ==== Sys2Proof/Machine/Command.lean ====
section
/-! DEFINITION. One accepted command word (spec/40_frame_control.md R80), and a sequence of them without regard to time:
the architectural step of spec/10_state.md R20. -/

namespace Sys2Proof.Machine

/-- R80: decode the word and perform it; a malformed word has the effect of R146. -/
def perform (c : Word) (s : State) : Result :=
  match decode c with
  | .instr i => exec i s
  | .malformed _ => .next (malformedWord s)

/-- R20, R55: the words of a list performed one at a time, in order, each step's beats delivered at once. -/
def performAll : List Word → State → Result
  | [], s => .next s
  | c :: cs, s => andThen (perform c s) (performAll cs)

end Sys2Proof.Machine
end

