-- ==== Sys2Proof/Machine/Cycle.lean ====
section
/-! DEFINITION. The clock edge of spec/70_reset_and_hazards.md: the handshake (R168), beat presentation (R169),
`cmd_ready` (R170) and reset (R160). -/

namespace Sys2Proof.Machine

/-- What the host drives on the input ports in this cycle. -/
def pins (s : State) : Pins := s.host.headD Pins.quiet

/-- R170: the block accepts a command at this edge when `Q` holds at most one beat. -/
def cmdReady (s : State) : Bool := decide (s.q.length ≤ 1)

/-- R168: the word accepted at this edge, if one is. -/
def accepted (s : State) : Option Word :=
  if !(pins s).rst && (pins s).cmdValid && cmdReady s then some (pins s).cmd else none

/-- R169, first part: the beat presented in the cycle that ends leaves `Q`; the host moves on to its next cycle. -/
def endCycle (s : State) : State :=
  { s with q := s.q.tail, presented := s.presented ++ s.q.take 1, host := s.host.tail }

/-- R160, R162: a reset edge. Every register and `Q` take their reset values; what the host saw and what it will drive
are no state of the block. -/
def resetEdge (s : State) : State :=
  { State.reset with presented := s.presented ++ s.q.take 1, host := s.host.tail }

/-- The same machine some cycles later, when `cmd_ready` is 1: all beats but the last have been presented (R169, R170). A
machine that is ready is left as it is. -/
def untilReady (s : State) : State :=
  { s with
    q := s.q.drop (s.q.length - 1)
    presented := s.presented ++ s.q.take (s.q.length - 1) }

/-- The host presents the word `c` in this cycle (R168). -/
def presentWord (c : Word) (s : State) : State :=
  { s with host := { rst := false, cmdValid := true, cmd := c } :: s.host.tail }

end Sys2Proof.Machine
end

