-- ==== Sys2Proof/Machine/Step.lean ====
section
/-! DEFINITION. One rising edge of `clk` (spec/70_reset_and_hazards.md R160, R168, R169). -/

namespace Sys2Proof.Machine

/-- One rising edge of `clk`: a reset edge (R160), or the end of the cycle (R169) and then the step of the command
accepted at the edge, if one is (R168). -/
def step (s : State) : Host.Outcome State Fault Refusal :=
  if (pins s).rst then .next (resetEdge s)
  else
    match accepted s with
    | some c => perform c (endCycle s)
    | none => .next (endCycle s)

/-- The machine with the host presenting this command word, at a cycle in which it is accepted: the input ports of this
cycle, and `cmd_ready = 1`, which needs `Q` to hold at most one beat (R168, R170). Log entry 3. -/
def State.withFetchWord (s : State) (nbits w : Nat) : State := presentWord (tableWord nbits w) (untilReady s)

end Sys2Proof.Machine
end

