-- ==== Sys2Proof/Machine/Ports.lean ====
section
/-! DEFINITION. The output ports of spec/30_encoding.md R60 as functions of the state, with the packed words of R71, R72
and R73. Reading them has no side effect (R54). -/

namespace Sys2Proof.Machine

/-- R64: the 2-bit code of a level. -/
def levelCode : Level → BitVec 2
  | .pos => 0b01#2
  | .zero => 0b00#2
  | .neg => 0b11#2

/-- R22: the 2-bit code of `fsm`. -/
def fsmCode : Fsm → BitVec 2
  | .idle => 0b00#2
  | .active => 0b01#2
  | .error => 0b10#2

/-- R140: the 2-bit code of an error. -/
def errBits : ErrCode → BitVec 2
  | .none => 0b00#2
  | .invalidScheme => 0b01#2
  | .invalidSymbol => 0b10#2
  | .invalidCommand => 0b11#2

/-- `out_two`, `out_lvl0` and `out_lvl1` of a Data beat (R69). -/
def levelsBits : Levels → BitVec 5
  | .one l0 => 0b0#1 ++ levelCode l0 ++ 0b00#2
  | .two l0 l1 => 0b1#1 ++ levelCode l0 ++ levelCode l1

/-- R71: the packed word `OUTW` of a beat, from `out_done` at bit 9 down to `out_lvl1` (R69, R70). -/
def outw : Beat → BitVec 10
  | .data d ls => 0b0#1 ++ errBits .none ++ Symbol.code d ++ levelsBits ls
  | .done e => 0b1#1 ++ errBits e ++ 0b00#2 ++ 0b00000#5

/-- The output-beat fields of a cycle, in the layout of R71; all 0 when no beat is presented (R169). -/
def outBits (s : State) : BitVec 10 :=
  match s.q with
  | [] => 0
  | b :: _ => outw b

/-- R72: the status word. -/
def statusWord (s : State) : BitVec 32 :=
  0b00000000000#11 ++ BitVec.ofBool s.amiPos ++ BitVec.ofBool s.encLvl ++ BitVec.ofNat 4 s.dl.length ++ s.zeroCnt ++
    BitVec.ofBool s.onesPar ++ BitVec.ofBool s.lastPol ++ errBits s.errCode ++ s.scr ++ s.scheme ++ fsmCode s.fsm

/-- R73: the symbol codes of a delay line as one number, entry i at bits 2i+1 and 2i. -/
def dlineNat : List Symbol → Nat
  | [] => 0
  | d :: ds => d.code.toNat + 4 * dlineNat ds

/-- R73: the `dline` port; entries past the end of the delay line read 0. -/
def dlineWord (s : State) : BitVec 16 := BitVec.ofNat 16 (dlineNat s.dl)

/-- The values of the output ports in one cycle (R60). -/
structure OutPorts where
  cmdReady : Bool
  outValid : Bool
  outDone : BitVec 1
  outSym : BitVec 2
  outTwo : BitVec 1
  outLvl0 : BitVec 2
  outLvl1 : BitVec 2
  outErr : BitVec 2
  status : BitVec 32
  errIdx : BitVec 16
  symCnt : BitVec 16
  dline : BitVec 16
  err : Bool
deriving DecidableEq, Repr

/-- R60: every output port. The status ports show the state after the last accepted command (R36, R166), the output
port the head of `Q` (R169). -/
def ports (s : State) : OutPorts where
  cmdReady := Sys2Proof.Machine.cmdReady s
  outValid := !s.q.isEmpty
  outDone := (outBits s).extractLsb' 9 1
  outErr := (outBits s).extractLsb' 7 2
  outSym := (outBits s).extractLsb' 5 2
  outTwo := (outBits s).extractLsb' 4 1
  outLvl0 := (outBits s).extractLsb' 2 2
  outLvl1 := (outBits s).extractLsb' 0 2
  status := statusWord s
  errIdx := s.errIdx
  symCnt := s.symCnt
  dline := dlineWord s
  err := errBits s.errCode != 0b00#2

end Sys2Proof.Machine
end

