-- ==== Sys2Proof/Machine/Asm.lean ====
section
/-! DEFINITION. The assembler syntax of spec/30_encoding.md: command lines (R74) and the pseudo-instructions BITS and FRAME
(R75), which expand to command words. Machine/AsmText.lean reads and writes them as text. -/

namespace Sys2Proof.Machine

/-- R74: a scheme operand, by name or as a raw code `#n`. -/
inductive SchemeArg where
  | name (k : Scheme)
  | code (n : Nat)
deriving DecidableEq, Repr

/-- R74: a scramble-mode operand, by name or as a raw code `#n`. -/
inductive ScrArg where
  | name (m : ScrMode)
  | code (n : Nat)
deriving DecidableEq, Repr

/-- A line of a command stream (R74, R75). An omitted scramble-mode operand is `none`. -/
inductive AsmLine where
  | nop
  | start (k : SchemeArg) (m : Option ScrArg)
  | sym (d : Symbol)
  | endFrame
  | byte (n : Nat)
  | bits (str : List Symbol)
  | frame (k : SchemeArg) (m : Option ScrArg) (str : List Symbol)
deriving DecidableEq, Repr

/-- R74: the code of a scheme operand; a raw code is a number from 0 to 7. -/
def schemeArgCode : SchemeArg → Option (BitVec 3)
  | .name k => some k.code
  | .code n => if n ≤ 7 then some (BitVec.ofNat 3 n) else none

/-- R74: the code of a scramble-mode operand; a raw code is a number from 0 to 3, and an omitted operand means NONE. -/
def scrArgCode : Option ScrArg → Option (BitVec 2)
  | none => some (ScrMode.code .none)
  | some (.name m) => some m.code
  | some (.code n) => if n ≤ 3 then some (BitVec.ofNat 2 n) else none

/-- R74: the word of a SYM line. -/
def symWordOf (d : Symbol) : Word := encode (symInstr d)

/-- R75: the words of a frame, from its START word to its END word. -/
def frameWords (k : BitVec 3) (m : BitVec 2) (str : List Symbol) : List Word :=
  encode (.start m k) :: (str.map symWordOf ++ [encode .endFrame])

/-- R74, R75: the words of a line; none where an operand is out of range. -/
def assembleLine : AsmLine → Option (List Word)
  | .nop => some [encode .nop]
  | .start k m =>
    match schemeArgCode k, scrArgCode m with
    | some kc, some mc => some [encode (.start mc kc)]
    | _, _ => none
  | .sym d => some [symWordOf d]
  | .endFrame => some [encode .endFrame]
  | .byte n => if n ≤ 0xFF then some [BitVec.ofNat 8 n] else none
  | .bits str => some (str.map symWordOf)
  | .frame k m str =>
    match schemeArgCode k, scrArgCode m with
    | some kc, some mc => some (frameWords kc mc str)
    | _, _ => none

/-- The words of a command stream, line after line; none where a line has an operand out of range. -/
def assemble : List AsmLine → Option (List Word)
  | [] => some []
  | l :: ls =>
    match assembleLine l, assemble ls with
    | some w, some ws => some (w ++ ws)
    | _, _ => none

end Sys2Proof.Machine
end

