-- ==== Sys2Proof/Machine/Reference.lean ====
section
/-! DEFINITION. The reference functions of the spec, transcribed from the source's frame-level algorithms: `SCR_B8ZS` and
`SCR_HDB3` (spec/41_scrambler.md R113, R114), `ENCODE_k` (spec/42_line_encoder.md R130), and the result of a frame
(spec/40_frame_control.md R93). The step function does not use them: they are what a frame's beats are held against (R94). -/

namespace Sys2Proof.Machine

/-- The variables of the two scans (R113, R114); `lp` is the polarity symbol `+` or `-`. -/
structure Scan where
  out : List Symbol
  lp : Symbol
  z : Nat
  ones : Nat
deriving DecidableEq, Repr

/-- The start of both scans. -/
def Scan.init : Scan := { out := [], lp := .minus, z := 0, ones := 0 }

/-- R113, R114: the other polarity. -/
def flip (lp : Symbol) : Symbol := if lp = .minus then .plus else .minus

/-- R113, R114: `out` without its last `n` symbols. -/
def dropLast (n : Nat) (out : List Symbol) : List Symbol := out.take (out.length - n)

/-- One symbol of the scan of R113. -/
def scanB8zs (v : Scan) (ch : Symbol) : Scan :=
  if ch = .one then { v with z := 0, lp := flip v.lp, out := v.out ++ [flip v.lp] }
  else if v.z + 1 = 8 then
    { v with
      z := 0
      out := dropLast 8 (v.out ++ [.zero]) ++
        (if v.lp = .minus then [.zero, .zero, .zero, .plus, .minus, .zero, .minus, .plus]
         else [.zero, .zero, .zero, .minus, .plus, .zero, .plus, .minus]) }
  else { v with z := v.z + 1, out := v.out ++ [.zero] }

/-- R113: `SCR_B8ZS`, for strings over `0 1`. -/
def scrB8zs (b : List Symbol) : List Symbol := (b.foldl scanB8zs Scan.init).out

/-- One symbol of the scan of R114. -/
def scanHdb3 (v : Scan) (ch : Symbol) : Scan :=
  if ch = .one then { z := 0, ones := v.ones + 1, lp := flip v.lp, out := v.out ++ [flip v.lp] }
  else if v.z + 1 = 4 then
    if v.ones % 2 = 1 then
      { v with z := 0, ones := 0, out := dropLast 4 (v.out ++ [.zero]) ++ [.zero, .zero, .zero, v.lp] }
    else
      { z := 0, ones := 0, lp := flip v.lp
        out := dropLast 4 (v.out ++ [.zero]) ++ [flip v.lp, .zero, .zero, flip v.lp] }
  else { v with z := v.z + 1, out := v.out ++ [.zero] }

/-- R114: `SCR_HDB3`, for strings over `0 1`. -/
def scrHdb3 (b : List Symbol) : List Symbol := (b.foldl scanHdb3 Scan.init).out

/-- R94: `SCR_m`. -/
def scrRef : ScrMode → List Symbol → List Symbol
  | .none, b => b
  | .b8zs, b => scrB8zs b
  | .hdb3, b => scrHdb3 b

/-- R130: the loop of `ENCODE_k` from the level `L` and the AMI polarity `pos`. -/
def encodeFrom (k : Scheme) : Level → Bool → List Symbol → List Level
  | _, _, [] => []
  | L, pos, ch :: t =>
    match k with
    | .nrzL => (if ch = .zero then .pos else .neg) :: encodeFrom k L pos t
    | .nrzI =>
      if ch = .one then neg L :: encodeFrom k (neg L) pos t
      else L :: encodeFrom k L pos t
    | .manchester => (if ch = .zero then [.pos, .neg] else [.neg, .pos]) ++ encodeFrom k L pos t
    | .diffManchester =>
      if ch = .zero then neg L :: L :: encodeFrom k L pos t
      else L :: neg L :: encodeFrom k (neg L) pos t
    | .ami =>
      match ch with
      | .zero => .zero :: encodeFrom k L pos t
      | .one => (if pos then .neg else .pos) :: encodeFrom k L (!pos) t
      | .plus => .pos :: encodeFrom k L true t
      | .minus => .neg :: encodeFrom k L false t

/-- R130: `ENCODE_k`, for strings over `0 1`, or over `0 1 + -` when k is AMI. -/
def encodeRef (k : Scheme) (t : List Symbol) : List Level := encodeFrom k .pos false t

/-- The Data beat of a symbol under AMI with `ami_pos` = `pos` (R125 to R128). -/
def amiBeat (d : Symbol) (pos : Bool) : Beat :=
  match d with
  | .zero => .data .zero (.one .zero)
  | .one => .data .one (.one (if pos then .neg else .pos))
  | .plus => .data .plus (.one .pos)
  | .minus => .data .minus (.one .neg)

/-- `ami_pos` after a symbol (R125 to R128). -/
def amiAfter (d : Symbol) (pos : Bool) : Bool :=
  match d with
  | .zero => pos
  | .one => !pos
  | .plus => true
  | .minus => false

/-- `ami_pos` after a string under scheme `k`: only AMI writes it (R30). -/
def polarityAfter (k : Scheme) (pos : Bool) (t : List Symbol) : Bool :=
  if k = .ami then t.foldl (fun p d => amiAfter d p) pos else pos

/-- `enc_lvl` after a string under scheme `k`: only NRZ-I and Differential Manchester write it, at each `1` (R29). -/
def levelAfter (k : Scheme) (lvl : Bool) (t : List Symbol) : Bool :=
  if k = .nrzI ∨ k = .diffManchester then t.foldl (fun l d => if d = .one then !l else l) lvl else lvl

/-- A string over `0 1` (R94). -/
def Binary (b : List Symbol) : Prop := ∀ d ∈ b, d = .zero ∨ d = .one

/-- The levels of a beat, in time order (R51). -/
def beatLevels : Beat → List Level
  | .data _ (.one l0) => [l0]
  | .data _ (.two l0 l1) => [l0, l1]
  | .done _ => []

/-- The symbol of a Data beat. -/
def beatSymbols : Beat → List Symbol
  | .data d _ => [d]
  | .done _ => []

/-- A Done beat. -/
def isDone : Beat → Bool
  | .data _ _ => false
  | .done _ => true

/-- R93: the result of a frame. The beats of a failed frame are void. -/
inductive FrameResult where
  | success (levels : List Level) (scrambled : List Symbol)
  | failure (e : ErrCode)
deriving DecidableEq, Repr

/-- R93: the result read off the beats of a frame's steps; none while its Done beat is missing. -/
def frameResult (beats : List Beat) : Option FrameResult :=
  match beats.getLast? with
  | some (.done .none) => some (.success (beats.flatMap beatLevels) (beats.flatMap beatSymbols))
  | some (.done .invalidScheme) => some (.failure .invalidScheme)
  | some (.done .invalidSymbol) => some (.failure .invalidSymbol)
  | some (.done .invalidCommand) => some (.failure .invalidCommand)
  | some (.data _ _) => none
  | none => none

end Sys2Proof.Machine
end

