-- ==== Sys2Proof/Safety.lean ====
section
/-! DEFINITION. What holds in every state that a run from reset reaches, in named parts, and the words the statements use
about runs: the registers without the queue, the observation, and the words that a run accepts. -/

namespace Sys2Proof.Machine

/-- An open frame that has not failed has a valid configuration (R83). -/
abbrev ConfigInv (s : State) : Prop := s.fsm = .active → validConfig s.scheme s.scr = true

/-- Outside an ACTIVE frame the delay line is empty (R90, R91, R141). -/
abbrev ClosedLineInv (s : State) : Prop := s.fsm ≠ .active → s.dl = []

/-- The depth N that a raw scramble code gives (R66); the unrecognised code has no scrambler. -/
def depthOf (m : BitVec 2) : Nat :=
  match ScrMode.ofCode m with
  | some mode => depth mode
  | none => 0

/-- R28, R100: the delay line holds at most N symbols. -/
abbrev DepthInv (s : State) : Prop := s.dl.length ≤ depthOf s.scr

/-- R26: `zero_cnt < N`, or 0 when no scrambler is active. -/
abbrev ZeroCountInv (s : State) : Prop := s.zeroCnt.toNat < depthOf s.scr ∨ s.zeroCnt = 0

/-- R115, read for an ACTIVE frame (log entry 4): the delay line ends in `zero_cnt` zeros. -/
abbrev ZeroRunInv (s : State) : Prop :=
  s.fsm = .active →
    s.zeroCnt.toNat ≤ s.dl.length ∧
      s.dl.drop (s.dl.length - s.zeroCnt.toNat) = List.replicate s.zeroCnt.toNat .zero

/-- R112: no `1` stands in the delay line. -/
abbrev AlphabetInv (s : State) : Prop := Symbol.one ∉ s.dl

/-- R27, R101: the registers of a scrambler that is not in use keep their START values. -/
abbrev IdleScramblerInv (s : State) : Prop :=
  (s.scr ≠ ScrMode.code .hdb3 → s.onesPar = false) ∧
    (s.scr ≠ ScrMode.code .b8zs → s.scr ≠ ScrMode.code .hdb3 → s.lastPol = false)

/-- R29, R30: the registers of an encoder that is not in use keep their START values. -/
abbrev IdleEncoderInv (s : State) : Prop :=
  (s.scheme ≠ Scheme.code .nrzI → s.scheme ≠ Scheme.code .diffManchester → s.encLvl = false) ∧
    (s.scheme ≠ Scheme.code .ami → s.amiPos = false)

/-- R22, R31, R82, R141: an ACTIVE frame has recorded no error, a failed one has. -/
abbrev ErrorInv (s : State) : Prop :=
  (s.fsm = .active → s.errCode = .none ∧ s.errIdx = 0) ∧ (s.fsm = .error → s.errCode ≠ .none)

/-- R34, R170: the output queue holds at most 9 beats. -/
abbrev QueueInv (s : State) : Prop := s.q.length ≤ Config.outqCap

/-- The invariant of LENC: all of the above. -/
structure Inv (s : State) : Prop where
  config : ConfigInv s
  closedLine : ClosedLineInv s
  depth : DepthInv s
  zeroCount : ZeroCountInv s
  zeroRun : ZeroRunInv s
  alphabet : AlphabetInv s
  idleScrambler : IdleScramblerInv s
  idleEncoder : IdleEncoderInv s
  error : ErrorInv s
  queue : QueueInv s

/-- A safe step answers a next state: the step of R20 is a total function. -/
def Safe (s : State) : Prop := ∃ t, step s = .next t

/-- The tuple S of R20: every register, with the output queue and the host's side of the ports left out. -/
def registers (s : State) : State := { s with q := [], host := [], presented := [] }

/-- R20: the observation so far, every beat emitted, presented or not. -/
def observed (s : State) : List Beat := s.presented ++ s.q

/-- No reset edge in the host's next `n` cycles. -/
def noReset (n : Nat) (s : State) : Prop := ∀ p ∈ s.host.take n, p.rst = false

/-- The words accepted at the next `n` edges, in order (R168). -/
def acceptedWords : Nat → State → List Word
  | 0, _ => []
  | n + 1, s =>
    match step s with
    | .next t => (accepted s).toList ++ acceptedWords n t
    | .fault _ => (accepted s).toList
    | .refused _ => (accepted s).toList

end Sys2Proof.Machine
end

