-- ==== Sys2Proof/Certificates/Slice0/Obligations.lean ====
section
/-! DEFINITION. The statements about LENC, from the numbered rules of spec/. OBLIGATIONS.json lists them with the rules
they rest on. Every equation `exec … = .next t` is at once the result, the frame and the completion of the command: the
registers, the queue and the host's side of the ports that `t` does not name are those of `s`. -/

open Sys2Proof Sys2Proof.Machine

/-! Reset -/

/-- R161: every register at its reset value, `Q` empty, and what the ports then show. -/
def Obligations.ResetLeavesEveryRegisterZero : Prop :=
  registers State.reset =
      { fsm := .idle, scheme := 0b000#3, scr := 0b00#2, lastPol := false, zeroCnt := 0, onesPar := false, dl := [],
        encLvl := false, amiPos := false, errCode := .none, errIdx := 0x0000#16, symCnt := 0x0000#16, q := [],
        host := [], presented := [] } ∧
    State.reset.q = [] ∧ (ports State.reset).status = 0x00000000#32 ∧ (ports State.reset).dline = 0x0000#16 ∧
    (ports State.reset).err = false ∧ (ports State.reset).outValid = false ∧ (ports State.reset).cmdReady = true

/-- R160, R162: an edge with `rst = 1`, from any state, in an open frame too: every register and `Q` take their reset
values, no command is accepted, and only the beat that was on the port has been presented. That it counts as presented
is the model's reading (log entry 8); `presented` and `host` are the model's own fields (log entries 1, 2). -/
def Obligations.ResetEdgeClearsRegistersAndQueue : Prop :=
  ∀ s : State, (pins s).rst = true →
    accepted s = none ∧
      ∃ t, step s = .next t ∧ registers t = registers State.reset ∧ t.q = [] ∧ t.presented = s.presented ++ s.q.take 1 ∧
        t.host = s.host.tail ∧ (ports t).outValid = false ∧ (ports t).cmdReady = true

/-! Encodings -/

/-- R63 to R66, R74 and spec/95_test_vectors.md section 2: some words written out bit by bit decode as the spec says. -/
def Obligations.WrittenWordsDecode : Prop :=
  decode 0b00000000#8 = .instr .nop ∧ decode 0b01000000#8 = .instr (.start 0b00#2 0b000#3) ∧
    decode 0b01010100#8 = .instr (.start 0b01#2 0b100#3) ∧ decode 0b01100100#8 = .instr (.start 0b10#2 0b100#3) ∧
    decode 0b01110111#8 = .instr (.start 0b11#2 0b111#3) ∧ decode 0b10000000#8 = .instr .sym0 ∧
    decode 0b10000001#8 = .instr .sym1 ∧ decode 0b10000010#8 = .instr .symPlus ∧
    decode 0b10000011#8 = .instr .symMinus ∧ decode 0b11000000#8 = .instr .endFrame ∧
    decode 0b01001100#8 = .malformed .start ∧ decode 0b10000100#8 = .malformed .sym

/-- R76: the decoder on all 256 words, by the op field and the reserved bits of each. -/
def Obligations.DecoderFollowsOpAndReservedBits : Prop :=
  ∀ c : Word,
    (c.extractLsb' 6 2 = 0b00#2 → c.extractLsb' 0 6 = 0 → decode c = .instr .nop) ∧
    (c.extractLsb' 6 2 = 0b01#2 → c.extractLsb' 3 1 = 0 →
      decode c = .instr (.start (c.extractLsb' 4 2) (c.extractLsb' 0 3))) ∧
    (c.extractLsb' 6 2 = 0b10#2 → c.extractLsb' 2 4 = 0 →
      decode c = .instr (symInstr (Symbol.ofCode (c.extractLsb' 0 2)))) ∧
    (c.extractLsb' 6 2 = 0b11#2 → c.extractLsb' 0 6 = 0 → decode c = .instr .endFrame) ∧
    (c.extractLsb' 6 2 = 0b00#2 → c.extractLsb' 0 6 ≠ 0 → ∃ op, decode c = .malformed op) ∧
    (c.extractLsb' 6 2 = 0b01#2 → c.extractLsb' 3 1 ≠ 0 → ∃ op, decode c = .malformed op) ∧
    (c.extractLsb' 6 2 = 0b10#2 → c.extractLsb' 2 4 ≠ 0 → ∃ op, decode c = .malformed op) ∧
    (c.extractLsb' 6 2 = 0b11#2 → c.extractLsb' 0 6 ≠ 0 → ∃ op, decode c = .malformed op)

/-- Decode and encode agree: every command's word decodes to it, and every word that decodes to a command is that
command's word, so no two words share one command and no bit of a word is dropped. -/
def Obligations.DecodeEncodeAgree : Prop :=
  (∀ i : Instr, decode (encode i) = .instr i) ∧ ∀ (c : Word) (i : Instr), decode c = .instr i → encode i = c

/-- R68: the words that decode to a command are the 38 well-formed words of the table, the rest are malformed, and the
masks of spec/opcode_table.json say the same. -/
def Obligations.WellFormedWordsAreTheTables : Prop :=
  ∀ c : Word,
    ((∃ i, decode c = .instr i) ↔
      c ∈ [0x00#8, 0x40#8, 0x41#8, 0x42#8, 0x43#8, 0x44#8, 0x45#8, 0x46#8, 0x47#8, 0x50#8, 0x51#8, 0x52#8, 0x53#8, 0x54#8,
        0x55#8, 0x56#8, 0x57#8, 0x60#8, 0x61#8, 0x62#8, 0x63#8, 0x64#8, 0x65#8, 0x66#8, 0x67#8, 0x70#8, 0x71#8, 0x72#8,
        0x73#8, 0x74#8, 0x75#8, 0x76#8, 0x77#8, 0x80#8, 0x81#8, 0x82#8, 0x83#8, 0xC0#8]) ∧
    ((∃ i, decode c = .instr i) ↔ wordWellFormed c = true)

/-- R75: the pseudo-instruction FRAME stands for its START, BITS and END lines, and BITS for one SYM line a character. -/
def Obligations.FrameLineExpands : Prop :=
  (∀ k m str, assembleLine (.frame k m str) = assemble [.start k m, .bits str, .endFrame]) ∧
    ∀ str, assembleLine (.bits str) = assemble (str.map .sym)

/-! The step of a cycle -/

/-- A step runs the decoded command: when the host presents a word in a cycle with `cmd_ready = 1` and the word decodes to
`i`, the step is `exec i` on the state in which the presented beat has left `Q` and the host has moved on (R168, R169).
`presented` and `host` are the model's own fields (log entries 1, 2). -/
def Obligations.StepRunsDecodedCommand : Prop :=
  ∀ (s : State) (i : Instr), (pins s).rst = false → (pins s).cmdValid = true → s.q.length ≤ 1 →
    decode (pins s).cmd = .instr i →
      step s = exec i { s with q := [], presented := s.presented ++ s.q, host := s.host.tail }

/-- The same for a word placed by `State.withFetchWord`: the very next step runs exactly it, whatever the queue held. How
a word is placed is the model's choice (log entry 3). -/
def Obligations.StepRunsPlacedWord : Prop :=
  ∀ (s : State) (nbits w : Nat) (i : Instr), decodeTableWord nbits w = some i →
    step (s.withFetchWord nbits w) =
      exec i { s with q := [], presented := s.presented ++ s.q, host := s.host.tail }

/-- R146, R168: the step at which a malformed word is accepted answers a next state: ignored in ERROR, InvalidCommand in
IDLE and ACTIVE, with `sym_cnt` as it was and no beat. `presented` and `host` are the model's own (log entries 1, 2). -/
def Obligations.StepOnMalformedWord : Prop :=
  ∀ (s : State) (op : Op), (pins s).rst = false → (pins s).cmdValid = true → s.q.length ≤ 1 →
    decode (pins s).cmd = .malformed op →
      (s.fsm = .error →
        step s = .next { s with q := [], presented := s.presented ++ s.q, host := s.host.tail }) ∧
      (s.fsm ≠ .error →
        step s = .next { s with
          q := [], presented := s.presented ++ s.q, host := s.host.tail
          fsm := .error, errCode := .invalidCommand, errIdx := s.symCnt, dl := [] })

/-- R153, R168, R170: with no command presented, or with two beats or more in `Q` whatever is presented, nothing is
accepted: the block holds all its state and only the beat on the port leaves. `presented` and `host` are the model's own
(log entries 1, 2). -/
def Obligations.CycleWithoutAcceptanceOnlyPresents : Prop :=
  ∀ s : State, (pins s).rst = false → ((pins s).cmdValid = false ∨ 2 ≤ s.q.length) →
    (2 ≤ s.q.length → (ports s).cmdReady = false) ∧ accepted s = none ∧
      step s = .next { s with q := s.q.tail, presented := s.presented ++ s.q.take 1, host := s.host.tail }

/-! NOP, START and malformed words -/

/-- R81: NOP changes nothing in any state, and `0x00` is its word. -/
def Obligations.NopChangesNothing : Prop :=
  decode 0x00#8 = .instr .nop ∧ ∀ s : State, exec .nop s = .next s

/-- R82, R83: a START with a valid configuration opens a frame from any state, ERROR and an open frame included: every
register of the frame takes its START value, no beat is emitted, and the beats already in `Q` stay. -/
def Obligations.StartOpensValidFrame : Prop :=
  ∀ (s : State) (m : BitVec 2) (k : BitVec 3), k.toNat ≤ 4 → m.toNat ≠ 3 → (m.toNat = 0 ∨ k.toNat = 4) →
    exec (.start m k) s =
      .next { s with
        fsm := .active, scheme := k, scr := m, lastPol := false, zeroCnt := 0, onesPar := false, dl := [],
        encLvl := false, amiPos := false, errCode := .none, errIdx := 0, symCnt := 0 }

/-- R84: a START with an unrecognised scheme code, an unrecognised scramble code, or a scrambler in front of a scheme
other than AMI leaves a frame in ERROR with InvalidScheme at index 0; the rejected codes stay readable. -/
def Obligations.StartRejectsInvalidConfiguration : Prop :=
  ∀ (s : State) (m : BitVec 2) (k : BitVec 3), (5 ≤ k.toNat ∨ m.toNat = 3 ∨ (m.toNat ≠ 0 ∧ k.toNat ≠ 4)) →
    exec (.start m k) s =
      .next { s with
        fsm := .error, scheme := k, scr := m, lastPol := false, zeroCnt := 0, onesPar := false, dl := [],
        encLvl := false, amiPos := false, errCode := .invalidScheme, errIdx := 0, symCnt := 0 }

/-- R67: of all command words, exactly seven START words open a frame that is ACTIVE. -/
def Obligations.SevenWordsOpenAFrame : Prop :=
  ∀ (s : State) (c : Word), s.fsm = .idle →
    ((∃ t, perform c s = .next t ∧ t.fsm = .active) ↔
      c ∈ [0x40#8, 0x41#8, 0x42#8, 0x43#8, 0x44#8, 0x54#8, 0x64#8])

/-- R146: a malformed word in each frame state; `sym_cnt` is not counted and no beat is emitted. -/
def Obligations.MalformedWordRaisesOrIsIgnored : Prop :=
  ∀ (s : State) (c : Word), wordWellFormed c = false →
    (s.fsm = .error → perform c s = .next s) ∧
    (s.fsm ≠ .error →
      perform c s =
        .next { s with fsm := .error, errCode := .invalidCommand, errIdx := s.symCnt, dl := [] })

/-! SYM outside an ACTIVE frame, and the alphabet check -/

/-- R86: a symbol with no frame open raises InvalidCommand at the index before it; the next END closes the failed frame
with Done(0b11). -/
def Obligations.SymWithNoFrameRaisesInvalidCommand : Prop :=
  ∀ (s : State) (d : Symbol), s.fsm = .idle →
    ∃ t, exec (symInstr d) s = .next t ∧
      t = { s with
        fsm := .error, errCode := .invalidCommand, errIdx := s.symCnt, symCnt := s.symCnt + 1, dl := [] } ∧
      exec .endFrame t = .next { t with fsm := .idle, q := s.q ++ [.done .invalidCommand] }

/-- R87: in ERROR a symbol is ignored, `+` and `-` too: only `sym_cnt` changes. -/
def Obligations.SymInErrorOnlyCounts : Prop :=
  ∀ (s : State) (d : Symbol), s.fsm = .error → exec (symInstr d) s = .next { s with symCnt := s.symCnt + 1 }

/-- R88: a forced pulse in a frame that is not plain AMI raises InvalidSymbol at its index, discards the delay line and
emits nothing. -/
def Obligations.ForcedPulseOutsidePlainAmiRaisesInvalidSymbol : Prop :=
  ∀ s : State, s.fsm = .active → ¬(s.scheme = 0b100#3 ∧ s.scr = 0b00#2) →
    exec .symPlus s =
        .next { s with
          fsm := .error, errCode := .invalidSymbol, errIdx := s.symCnt, symCnt := s.symCnt + 1, dl := [] } ∧
      exec .symMinus s =
        .next { s with
          fsm := .error, errCode := .invalidSymbol, errIdx := s.symCnt, symCnt := s.symCnt + 1, dl := [] }

/-! SYM with no scrambler: the five schemes -/

/-- R121: NRZ-L. -/
def Obligations.SymNrzL : Prop :=
  ∀ s : State, s.fsm = .active → s.scheme = 0b000#3 → s.scr = 0b00#2 →
    exec .sym0 s = .next { s with symCnt := s.symCnt + 1, q := s.q ++ [.data .zero (.one .pos)] } ∧
      exec .sym1 s = .next { s with symCnt := s.symCnt + 1, q := s.q ++ [.data .one (.one .neg)] }

/-- R122: NRZ-I emits the level after the symbol's rule is applied, and only `1` writes `enc_lvl`. -/
def Obligations.SymNrzI : Prop :=
  ∀ s : State, s.fsm = .active → s.scheme = 0b001#3 → s.scr = 0b00#2 →
    exec .sym0 s =
        .next { s with
          symCnt := s.symCnt + 1, q := s.q ++ [.data .zero (.one (if s.encLvl then .neg else .pos))] } ∧
      exec .sym1 s =
        .next { s with
          symCnt := s.symCnt + 1, encLvl := !s.encLvl
          q := s.q ++ [.data .one (.one (if s.encLvl then .pos else .neg))] }

/-- R123: Manchester. -/
def Obligations.SymManchester : Prop :=
  ∀ s : State, s.fsm = .active → s.scheme = 0b010#3 → s.scr = 0b00#2 →
    exec .sym0 s = .next { s with symCnt := s.symCnt + 1, q := s.q ++ [.data .zero (.two .pos .neg)] } ∧
      exec .sym1 s = .next { s with symCnt := s.symCnt + 1, q := s.q ++ [.data .one (.two .neg .pos)] }

/-- R124: Differential Manchester, from level +1 (`enc_lvl` = 0) and from level -1. -/
def Obligations.SymDiffManchester : Prop :=
  ∀ s : State, s.fsm = .active → s.scheme = 0b011#3 → s.scr = 0b00#2 →
    exec .sym0 s =
        .next { s with
          symCnt := s.symCnt + 1
          q := s.q ++ [.data .zero (if s.encLvl then .two .pos .neg else .two .neg .pos)] } ∧
      exec .sym1 s =
        .next { s with
          symCnt := s.symCnt + 1, encLvl := !s.encLvl
          q := s.q ++ [.data .one (if s.encLvl then .two .neg .pos else .two .pos .neg)] }

/-- R125 to R128: plain AMI on its four symbols. -/
def Obligations.SymPlainAmi : Prop :=
  ∀ s : State, s.fsm = .active → s.scheme = 0b100#3 → s.scr = 0b00#2 →
    exec .sym0 s = .next { s with symCnt := s.symCnt + 1, q := s.q ++ [.data .zero (.one .zero)] } ∧
      (s.amiPos = true →
        exec .sym1 s =
          .next { s with symCnt := s.symCnt + 1, amiPos := false, q := s.q ++ [.data .one (.one .neg)] }) ∧
      (s.amiPos = false →
        exec .sym1 s =
          .next { s with symCnt := s.symCnt + 1, amiPos := true, q := s.q ++ [.data .one (.one .pos)] }) ∧
      exec .symPlus s =
        .next { s with symCnt := s.symCnt + 1, amiPos := true, q := s.q ++ [.data .plus (.one .pos)] } ∧
      exec .symMinus s =
        .next { s with symCnt := s.symCnt + 1, amiPos := false, q := s.q ++ [.data .minus (.one .neg)] }

/-! SYM through a scrambler. While the line fills no beat leaves; when it is full its oldest symbol d does, and AMI
encodes it. `amiBeat` and `amiAfter` are the table of R125 to R128. -/

/-- R102, R103: B8ZS, input `1`. -/
def Obligations.SymB8zsOne : Prop :=
  ∀ s : State, s.fsm = .active → s.scheme = 0b100#3 → s.scr = 0b01#2 →
    (s.dl.length < 8 →
      exec .sym1 s =
        .next { s with
          symCnt := s.symCnt + 1, zeroCnt := 0, lastPol := !s.lastPol
          dl := s.dl ++ [if s.lastPol then .minus else .plus] }) ∧
    (∀ d rest, s.dl = d :: rest → rest.length = 7 →
      exec .sym1 s =
        .next { s with
          symCnt := s.symCnt + 1, zeroCnt := 0, lastPol := !s.lastPol
          dl := rest ++ [if s.lastPol then .minus else .plus]
          amiPos := amiAfter d s.amiPos, q := s.q ++ [amiBeat d s.amiPos] })

/-- R102, R104, R105: B8ZS, input `0`: the run grows, or its eighth zero is substituted and overwrites the line. -/
def Obligations.SymB8zsZero : Prop :=
  ∀ s : State, s.fsm = .active → s.scheme = 0b100#3 → s.scr = 0b01#2 →
    (s.dl.length < 8 → s.zeroCnt ≠ 7 →
      exec .sym0 s =
        .next { s with symCnt := s.symCnt + 1, zeroCnt := s.zeroCnt + 1, dl := s.dl ++ [.zero] }) ∧
    (s.dl.length < 8 → s.zeroCnt = 7 →
      exec .sym0 s =
        .next { s with
          symCnt := s.symCnt + 1, zeroCnt := 0
          dl := if s.lastPol then [.zero, .zero, .zero, .minus, .plus, .zero, .plus, .minus]
            else [.zero, .zero, .zero, .plus, .minus, .zero, .minus, .plus] }) ∧
    (∀ d rest, s.dl = d :: rest → rest.length = 7 → s.zeroCnt ≠ 7 →
      exec .sym0 s =
        .next { s with
          symCnt := s.symCnt + 1, zeroCnt := s.zeroCnt + 1, dl := rest ++ [.zero]
          amiPos := amiAfter d s.amiPos, q := s.q ++ [amiBeat d s.amiPos] }) ∧
    (∀ d rest, s.dl = d :: rest → rest.length = 7 → s.zeroCnt = 7 →
      exec .sym0 s =
        .next { s with
          symCnt := s.symCnt + 1, zeroCnt := 0
          dl := if s.lastPol then [.zero, .zero, .zero, .minus, .plus, .zero, .plus, .minus]
            else [.zero, .zero, .zero, .plus, .minus, .zero, .minus, .plus]
          amiPos := amiAfter d s.amiPos, q := s.q ++ [amiBeat d s.amiPos] })

/-- R102, R106: HDB3, input `1`. -/
def Obligations.SymHdb3One : Prop :=
  ∀ s : State, s.fsm = .active → s.scheme = 0b100#3 → s.scr = 0b10#2 →
    (s.dl.length < 4 →
      exec .sym1 s =
        .next { s with
          symCnt := s.symCnt + 1, zeroCnt := 0, lastPol := !s.lastPol, onesPar := !s.onesPar
          dl := s.dl ++ [if s.lastPol then .minus else .plus] }) ∧
    (∀ d rest, s.dl = d :: rest → rest.length = 3 →
      exec .sym1 s =
        .next { s with
          symCnt := s.symCnt + 1, zeroCnt := 0, lastPol := !s.lastPol, onesPar := !s.onesPar
          dl := rest ++ [if s.lastPol then .minus else .plus]
          amiPos := amiAfter d s.amiPos, q := s.q ++ [amiBeat d s.amiPos] })

/-- R102, R107: HDB3, input `0`, while the run is shorter than four. -/
def Obligations.SymHdb3ZeroInShortRun : Prop :=
  ∀ s : State, s.fsm = .active → s.scheme = 0b100#3 → s.scr = 0b10#2 → s.zeroCnt ≠ 3 →
    (s.dl.length < 4 →
      exec .sym0 s =
        .next { s with symCnt := s.symCnt + 1, zeroCnt := s.zeroCnt + 1, dl := s.dl ++ [.zero] }) ∧
    (∀ d rest, s.dl = d :: rest → rest.length = 3 →
      exec .sym0 s =
        .next { s with
          symCnt := s.symCnt + 1, zeroCnt := s.zeroCnt + 1, dl := rest ++ [.zero]
          amiPos := amiAfter d s.amiPos, q := s.q ++ [amiBeat d s.amiPos] })

/-- R102, R107 to R109: HDB3, the fourth zero of a run: `000V` with V the last polarity at odd parity, `B00V` with the new
polarity at even parity. -/
def Obligations.SymHdb3Substitutes : Prop :=
  ∀ s : State, s.fsm = .active → s.scheme = 0b100#3 → s.scr = 0b10#2 → s.zeroCnt = 3 →
    (s.dl.length < 4 → s.onesPar = true →
      exec .sym0 s =
        .next { s with
          symCnt := s.symCnt + 1, zeroCnt := 0, onesPar := false
          dl := [.zero, .zero, .zero, if s.lastPol then .plus else .minus] }) ∧
    (s.dl.length < 4 → s.onesPar = false →
      exec .sym0 s =
        .next { s with
          symCnt := s.symCnt + 1, zeroCnt := 0, onesPar := false, lastPol := !s.lastPol
          dl := [if s.lastPol then .minus else .plus, .zero, .zero, if s.lastPol then .minus else .plus] }) ∧
    (∀ d rest, s.dl = d :: rest → rest.length = 3 → s.onesPar = true →
      exec .sym0 s =
        .next { s with
          symCnt := s.symCnt + 1, zeroCnt := 0, onesPar := false
          dl := [.zero, .zero, .zero, if s.lastPol then .plus else .minus]
          amiPos := amiAfter d s.amiPos, q := s.q ++ [amiBeat d s.amiPos] }) ∧
    (∀ d rest, s.dl = d :: rest → rest.length = 3 → s.onesPar = false →
      exec .sym0 s =
        .next { s with
          symCnt := s.symCnt + 1, zeroCnt := 0, onesPar := false, lastPol := !s.lastPol
          dl := [if s.lastPol then .minus else .plus, .zero, .zero, if s.lastPol then .minus else .plus]
          amiPos := amiAfter d s.amiPos, q := s.q ++ [amiBeat d s.amiPos] })

/-- R116: after a B8ZS substitution the next real `1`, however many zeros come before it, takes the sign of the pattern's
last pulse. -/
def Obligations.OneAfterB8zsPatternRepeatsItsLastPulse : Prop :=
  ∀ (s : State) (n : Nat), s.fsm = .active → s.scheme = 0b100#3 → s.scr = 0b01#2 → s.dl.length ≤ 8 → s.zeroCnt = 7 →
    ∃ t u p, exec .sym0 s = .next t ∧ t.dl.getLast? = some p ∧
      performAll (List.replicate n (symWordOf .zero) ++ [symWordOf .one]) t = .next u ∧ u.dl.getLast? = some p ∧
      p = if s.lastPol then .minus else .plus

/-! END -/

/-- R90: END in an ACTIVE frame encodes the delay line, oldest first, empties it, closes the frame and emits
Done(0b00) last. Only the encoder's registers change besides, and as the scheme's rules say for the flushed symbols; the
hypothesis on the symbols is that the scheme accepts them (R120). -/
def Obligations.EndFlushesAndClosesFrame : Prop :=
  ∀ (s : State) (k : Scheme), s.fsm = .active → s.scheme = k.code → (k = .ami ∨ Binary s.dl) →
    ∃ beats : List Beat,
      exec .endFrame s =
          .next { s with
            fsm := .idle, dl := []
            encLvl := levelAfter k s.encLvl s.dl, amiPos := polarityAfter k s.amiPos s.dl
            q := s.q ++ beats ++ [.done .none] } ∧
        (∀ b ∈ beats, isDone b = false) ∧ beats.flatMap beatSymbols = s.dl ∧
        beats.flatMap beatLevels = encodeFrom k (if s.encLvl then .neg else .pos) s.amiPos s.dl

/-- R91: END of a failed frame returns to IDLE and reports the frame's error; the error registers stay readable. -/
def Obligations.EndInErrorReportsTheError : Prop :=
  ∀ s : State, s.fsm = .error → exec .endFrame s = .next { s with fsm := .idle, q := s.q ++ [.done s.errCode] }

/-- R92: END with no frame open reports InvalidCommand at `sym_cnt` and stays in IDLE. -/
def Obligations.EndWithNoFrameReportsInvalidCommand : Prop :=
  ∀ s : State, s.fsm = .idle →
    exec .endFrame s =
      .next { s with errCode := .invalidCommand, errIdx := s.symCnt, q := s.q ++ [.done .invalidCommand] }

/-! What holds of every command -/

/-- R142: while a frame is in ERROR no command raises an error: the first error stays until START. -/
def Obligations.FirstErrorWins : Prop :=
  ∀ (s : State) (c : Word), s.fsm = .error →
    ∃ t, perform c s = .next t ∧
      ((∃ m k, decode c = .instr (.start m k)) ∨
        (t.errCode = s.errCode ∧ t.errIdx = s.errIdx ∧ (decode c = .instr .endFrame → t.fsm = .idle) ∧
          (decode c ≠ .instr .endFrame → t.fsm = .error ∧ t.q = s.q)))

/-- R70: every END emits exactly one Done beat, as the last beat of its step, and no other command emits one. Every
command only appends to the beats already in the queue. -/
def Obligations.ExactlyOneDoneBeatPerEnd : Prop :=
  ∀ (s t : State) (c : Word), perform c s = .next t →
    ∃ beats : List Beat, t.q = s.q ++ beats ∧
      (decode c = .instr .endFrame → ∃ front e, beats = front ++ [.done e] ∧ ∀ b ∈ front, isDone b = false) ∧
      (decode c ≠ .instr .endFrame → ∀ b ∈ beats, isDone b = false)

/-- R141: a command that enters ERROR emits no beat, empties the delay line and records an error; beside that it
changes only what it writes before it raises. -/
def Obligations.RaisingCommandEmitsNothing : Prop :=
  ∀ (s t : State) (c : Word), perform c s = .next t → s.fsm ≠ .error → t.fsm = .error →
    t.q = s.q ∧ t.dl = [] ∧ t.errCode ≠ .none ∧
      ((∃ m k, decode c = .instr (.start m k)) ∨
        (t.scheme = s.scheme ∧ t.scr = s.scr ∧ t.lastPol = s.lastPol ∧ t.zeroCnt = s.zeroCnt ∧
          t.onesPar = s.onesPar ∧ t.encLvl = s.encLvl ∧ t.amiPos = s.amiPos))

/-- R23, R24: only START writes the two selectors, and a command writes nothing of the host's side of the ports. -/
def Obligations.OnlyStartWritesSelectors : Prop :=
  ∀ (s t : State) (c : Word), perform c s = .next t →
    t.host = s.host ∧ t.presented = s.presented ∧
      ((∃ m k, decode c = .instr (.start m k)) ∨ (t.scheme = s.scheme ∧ t.scr = s.scr))

/-- R33, R85: `sym_cnt` counts the well-formed SYM commands since the last START, modulo 2^16, in every frame state. -/
def Obligations.SymCountCountsSymCommands : Prop :=
  ∀ (s t : State) (c : Word), perform c s = .next t →
    t.symCnt =
      match decode c with
      | .instr (.start _ _) => 0
      | .instr .sym0 => s.symCnt + 1
      | .instr .sym1 => s.symCnt + 1
      | .instr .symPlus => s.symCnt + 1
      | .instr .symMinus => s.symCnt + 1
      | .instr .nop => s.symCnt
      | .instr .endFrame => s.symCnt
      | .malformed _ => s.symCnt

/-- R25, R30, R35: neither half of the polarity tracker is written but by START, by a `0` or `1` that the scrambler takes
(`last_pol`), and by a symbol or an END under AMI (`ami_pos`). -/
def Obligations.PolarityIsWrittenOnlyByItsOwner : Prop :=
  ∀ (s t : State) (i : Instr), exec i s = .next t → (∀ m k, i ≠ .start m k) →
    (t.lastPol ≠ s.lastPol → s.fsm = .active ∧ (s.scr = 0b01#2 ∨ s.scr = 0b10#2) ∧ (i = .sym0 ∨ i = .sym1)) ∧
    (t.amiPos ≠ s.amiPos → s.fsm = .active ∧ s.scheme = 0b100#3 ∧ i ≠ .nop) ∧
    (t.encLvl ≠ s.encLvl → s.fsm = .active ∧ (s.scheme = 0b001#3 ∨ s.scheme = 0b011#3) ∧ i ≠ .nop)

/-- R171: how many beats each command emits, in every state that meets the invariant. -/
def Obligations.BeatsPerCommand : Prop :=
  ∀ (s : State) (c : Word), Inv s →
    ∃ t beats, perform c s = .next t ∧ t.q = s.q ++ beats ∧
      (∀ d : Symbol, decode c = .instr (symInstr d) →
        beats.length =
          if s.fsm = .active ∧ (d = .zero ∨ d = .one ∨ (s.scheme = 0b100#3 ∧ s.scr = 0b00#2)) then
            (if s.scr = 0b00#2 then 1
             else if s.scr = 0b01#2 then (if s.dl.length = 8 then 1 else 0)
             else if s.dl.length = 4 then 1 else 0)
          else 0) ∧
      (decode c = .instr .endFrame → beats.length = if s.fsm = .active then s.dl.length + 1 else 1) ∧
      ((∀ d : Symbol, decode c ≠ .instr (symInstr d)) → decode c ≠ .instr .endFrame → beats = [])

/-! The invariant -/

/-- The invariant holds of the reset state, whatever the host will drive. -/
def Obligations.InvHoldsAtReset : Prop := ∀ h : List Pins, Inv { State.reset with host := h }

/-- Every step keeps the invariant. -/
def Obligations.EveryStepKeepsInv : Prop := ∀ s t : State, Inv s → step s = .next t → Inv t

/-- R20: the step is total: in a state that meets the invariant no step faults or refuses. -/
def Obligations.StepNeverStops : Prop := ∀ s : State, Inv s → Safe s

/-- R20, R160: every run from reset, whatever the host drives on the input ports, goes on. The host's schedule is a field
of the model's own (log entry 1). -/
def Obligations.RunsFromResetNeverStop : Prop :=
  ∀ (h : List Pins) (n : Nat), ∃ t : State,
    Host.Core.run Sys2Proof.core n ({ State.reset with host := h } : State) = .next t ∧ Inv t

/-- R170: if `Q` holds at most 9 beats and the delay line at most 8 symbols, `Q` holds at most 9 beats after the step, and
`cmd_ready` is 1 exactly when `Q` holds at most one. -/
def Obligations.QueueNeverExceedsNine : Prop :=
  ∀ s t : State, s.q.length ≤ 9 → s.dl.length ≤ 8 → step s = .next t →
    t.q.length ≤ 9 ∧ ((ports t).cmdReady = true ↔ t.q.length ≤ 1)

/-- R115, in an ACTIVE frame (log entry 4): when the zero that completes a run arrives, the delay line holds the rest of
the run and nothing else, and the substitution puts the pattern of R105, R108 or R109 in its place. -/
def Obligations.SubstitutionReplacesExactlyTheRun : Prop :=
  ∀ s : State, Inv s → s.fsm = .active →
    (s.scr = 0b01#2 → s.zeroCnt = 7 →
      (if s.dl.length = 8 then s.dl.tail else s.dl) = List.replicate 7 .zero ∧
        ∃ t, exec .sym0 s = .next t ∧ t.zeroCnt = 0 ∧
          t.dl = if s.lastPol then [.zero, .zero, .zero, .minus, .plus, .zero, .plus, .minus]
            else [.zero, .zero, .zero, .plus, .minus, .zero, .minus, .plus]) ∧
    (s.scr = 0b10#2 → s.zeroCnt = 3 →
      (if s.dl.length = 4 then s.dl.tail else s.dl) = List.replicate 3 .zero ∧
        ∃ t, exec .sym0 s = .next t ∧ t.zeroCnt = 0 ∧
          t.dl =
            if s.onesPar then [.zero, .zero, .zero, if s.lastPol then .plus else .minus]
            else [if s.lastPol then .minus else .plus, .zero, .zero, if s.lastPol then .minus else .plus])

/-! Frames -/

/-- R94: the frame law. From any state, a frame with a valid configuration over its alphabet succeeds, its symbols spell
the scrambled string and its levels are the encoding of that string. -/
def Obligations.FrameComputesTheReference : Prop :=
  ∀ (s : State) (k : Scheme) (m : ScrMode) (b : List Symbol), (m = .none ∨ k = .ami) →
    (Binary b ∨ (k = .ami ∧ m = .none)) →
      ∃ t beats, performAll (frameWords k.code m.code b) s = .next t ∧ t.q = s.q ++ beats ∧ t.fsm = .idle ∧
        frameResult beats = some (.success (encodeRef k (scrRef m b)) (scrRef m b))

/-- R94: a frame with a forced pulse that its configuration does not accept fails with InvalidSymbol at the position of the
first one, whatever follows it. The position is recorded modulo 2^16 (R85, log entry 9). -/
def Obligations.FrameFailsAtFirstForcedPulse : Prop :=
  ∀ (s : State) (k : Scheme) (m : ScrMode) (b rest : List Symbol) (d : Symbol), (m = .none ∨ k = .ami) →
    ¬(k = .ami ∧ m = .none) → Binary b → (d = .plus ∨ d = .minus) →
      ∃ t beats, performAll (frameWords k.code m.code (b ++ d :: rest)) s = .next t ∧ t.q = s.q ++ beats ∧
        t.fsm = .idle ∧ frameResult beats = some (.failure .invalidSymbol) ∧ t.errIdx = BitVec.ofNat 16 b.length

/-- R84, R87, R91: a frame whose START is rejected fails with InvalidScheme and emits its Done beat only. -/
def Obligations.FrameWithInvalidConfigurationFails : Prop :=
  ∀ (s : State) (k : BitVec 3) (m : BitVec 2) (b : List Symbol),
    (5 ≤ k.toNat ∨ m.toNat = 3 ∨ (m.toNat ≠ 0 ∧ k.toNat ≠ 4)) →
      ∃ t, performAll (frameWords k m b) s = .next t ∧ t.q = s.q ++ [.done .invalidScheme] ∧ t.fsm = .idle ∧
        t.errCode = .invalidScheme ∧ t.errIdx = 0

/-- R95: the beats and the final registers of a frame depend only on its words, not on the state before it. -/
def Obligations.FrameIsIndependentOfHistory : Prop :=
  ∀ (s₁ s₂ : State) (k : BitVec 3) (m : BitVec 2) (b : List Symbol),
    ∃ t₁ t₂ beats, performAll (frameWords k m b) s₁ = .next t₁ ∧ performAll (frameWords k m b) s₂ = .next t₂ ∧
      t₁.q = s₁.q ++ beats ∧ t₂.q = s₂.q ++ beats ∧ registers t₁ = registers t₂

/-- R165 and R102: in an open scrambled frame over `0 1`, the beats emitted so far carry the scrambled string but for its
last N symbols, and the delay line holds those. -/
def Obligations.ScrambledFrameLagsByItsDepth : Prop :=
  ∀ (s : State) (m : ScrMode) (b : List Symbol), m ≠ .none → Binary b →
    ∃ t beats, performAll (encode (.start m.code 0b100#3) :: b.map symWordOf) s = .next t ∧ t.q = s.q ++ beats ∧
      beats.flatMap beatSymbols = (scrRef m b).take (b.length - depth m) ∧
      t.dl = (scrRef m b).drop (b.length - depth m)

/-- R111, R112: a scrambler keeps the length of the string, and no `1` is left in it. -/
def Obligations.ScramblersKeepLengthAndLeaveNoOne : Prop :=
  ∀ b : List Symbol, Binary b →
    (scrB8zs b).length = b.length ∧ (scrHdb3 b).length = b.length ∧ Symbol.one ∉ scrB8zs b ∧ Symbol.one ∉ scrHdb3 b

/-- R129: one level a symbol under NRZ-L, NRZ-I and AMI, two under the Manchester family, and the level 0 only under
AMI. For a string outside the alphabet of R130 it speaks of the model's own reference function, which treats such a symbol
as the last case of each choice (log entry 12); over the alphabet it is R129. -/
def Obligations.LevelsPerSymbol : Prop :=
  ∀ (k : Scheme) (t : List Symbol),
    (encodeRef k t).length =
        (if k = .manchester ∨ k = .diffManchester then 2 * t.length else t.length) ∧
      (k ≠ .ami → Level.zero ∉ encodeRef k t)

/-- R131: under Differential Manchester every symbol has a transition at its midpoint, and one at its start exactly when it
is `0`, measured against +1 for the first. -/
def Obligations.DiffManchesterTransitions : Prop :=
  ∀ (t : List Symbol) (i : Nat) (d : Symbol), Binary t → t[i]? = some d →
    ∃ before first second,
      (Level.pos :: encodeRef .diffManchester t)[2 * i]? = some before ∧
      (encodeRef .diffManchester t)[2 * i]? = some first ∧
      (encodeRef .diffManchester t)[2 * i + 1]? = some second ∧
      first ≠ second ∧ (first ≠ before ↔ d = .zero)

/-! Time -/

/-- R55, R172: cycle timing never changes what happens. In any run without a reset edge, the registers are those of the
accepted words performed one after another, and the beats presented or still in `Q` are exactly theirs, in order. The
host's schedule and the record of beats are the model's own fields (log entries 1, 2). -/
def Obligations.TimedRunsRefineCommandOrder : Prop :=
  ∀ (n : Nat) (s t : State), noReset n s → Host.Core.run Sys2Proof.core n s = .next t →
    ∃ u, performAll (acceptedWords n s) s = .next u ∧ registers t = registers u ∧ observed t = observed u

/-- R171: an END accepted in an ACTIVE frame with k symbols in the delay line is followed by k cycles with
`cmd_ready = 0`, and then by a cycle with `cmd_ready = 1`, in which the Done beat is presented. -/
def Obligations.EndStallsOneCyclePerFlushedSymbol : Prop :=
  ∀ (s : State) (j : Nat), Inv s → s.fsm = .active → accepted s = some 0xC0#8 → noReset (j + 1) s → j ≤ s.dl.length →
    ∃ t : State, Host.Core.run Sys2Proof.core (j + 1) s = .next t ∧
      ((ports t).cmdReady = true ↔ j = s.dl.length) ∧ (ports t).outValid = true ∧
      ((ports t).outDone = 1#1 ↔ j = s.dl.length)

/-! Ports -/

/-- R36, R72: every field of the status word is the register it names, in the codes of R22 and R140, and the reserved bits
are 0. -/
def Obligations.StatusWordShowsTheRegisters : Prop :=
  ∀ s : State, s.dl.length ≤ 8 →
    (ports s).status.extractLsb' 0 2 =
        (match s.fsm with
          | .idle => 0b00#2
          | .active => 0b01#2
          | .error => 0b10#2) ∧
    (ports s).status.extractLsb' 7 2 =
        (match s.errCode with
          | .none => 0b00#2
          | .invalidScheme => 0b01#2
          | .invalidSymbol => 0b10#2
          | .invalidCommand => 0b11#2) ∧
    (ports s).status.extractLsb' 2 3 = s.scheme ∧ (ports s).status.extractLsb' 5 2 = s.scr ∧
    (ports s).status.getLsbD 9 = s.lastPol ∧ (ports s).status.getLsbD 10 = s.onesPar ∧
    (ports s).status.extractLsb' 11 4 = s.zeroCnt ∧ ((ports s).status.extractLsb' 15 4).toNat = s.dl.length ∧
    (ports s).status.getLsbD 19 = s.encLvl ∧ (ports s).status.getLsbD 20 = s.amiPos ∧
    (ports s).status.extractLsb' 21 11 = 0 ∧
    (ports s).errIdx = s.errIdx ∧ (ports s).symCnt = s.symCnt ∧ ((ports s).err = true ↔ s.errCode ≠ .none)

/-- R73: entry i of the delay line at bits 2i+1 and 2i of `dline`, as its symbol code (R63), and 00 past its end. -/
def Obligations.DlinePortShowsTheDelayLine : Prop :=
  ∀ (s : State) (i : Nat), s.dl.length ≤ 8 → i < 8 →
    (∀ d, s.dl[i]? = some d →
      (ports s).dline.extractLsb' (2 * i) 2 =
        (match d with
          | .zero => 0b00#2
          | .one => 0b01#2
          | .plus => 0b10#2
          | .minus => 0b11#2)) ∧
      (s.dl.length ≤ i → (ports s).dline.extractLsb' (2 * i) 2 = 0b00#2)

/-- R69, R70, R169: what the output port shows when a one-level beat, a two-level beat, a Done beat or no beat is at the
head of `Q`, in the symbol codes of R63 and the error codes of R140; `LevelCodesAreTwosComplement` fixes the level codes. -/
def Obligations.OutputPortPresentsTheHeadBeat : Prop :=
  ∀ (s : State) (rest : List Beat),
    (s.q = [] →
      (ports s).outValid = false ∧ (ports s).outDone = 0 ∧ (ports s).outSym = 0 ∧ (ports s).outTwo = 0 ∧
        (ports s).outLvl0 = 0 ∧ (ports s).outLvl1 = 0 ∧ (ports s).outErr = 0) ∧
    (∀ d l0, s.q = .data d (.one l0) :: rest →
      (ports s).outValid = true ∧ (ports s).outDone = 0 ∧
        (ports s).outSym =
          (match d with
            | .zero => 0b00#2
            | .one => 0b01#2
            | .plus => 0b10#2
            | .minus => 0b11#2) ∧
        (ports s).outTwo = 0 ∧
        (ports s).outLvl0 = levelCode l0 ∧ (ports s).outLvl1 = 0 ∧ (ports s).outErr = 0) ∧
    (∀ d l0 l1, s.q = .data d (.two l0 l1) :: rest →
      (ports s).outValid = true ∧ (ports s).outDone = 0 ∧
        (ports s).outSym =
          (match d with
            | .zero => 0b00#2
            | .one => 0b01#2
            | .plus => 0b10#2
            | .minus => 0b11#2) ∧
        (ports s).outTwo = 1 ∧
        (ports s).outLvl0 = levelCode l0 ∧ (ports s).outLvl1 = levelCode l1 ∧ (ports s).outErr = 0) ∧
    (∀ e, s.q = .done e :: rest →
      (ports s).outValid = true ∧ (ports s).outDone = 1 ∧ (ports s).outSym = 0 ∧ (ports s).outTwo = 0 ∧
        (ports s).outLvl0 = 0 ∧ (ports s).outLvl1 = 0 ∧
        (ports s).outErr =
          (match e with
            | .none => 0b00#2
            | .invalidScheme => 0b01#2
            | .invalidSymbol => 0b10#2
            | .invalidCommand => 0b11#2))

/-- R64: the level codes, read as 2-bit two's-complement numbers, are the levels, and the code `0b10` is none of them. -/
def Obligations.LevelCodesAreTwosComplement : Prop :=
  (levelCode .pos).toInt = 1 ∧ (levelCode .zero).toInt = 0 ∧ (levelCode .neg).toInt = -1 ∧
    ∀ l : Level, levelCode l ≠ 0b10#2
end

