-- ==== Sys2Proof/Laws/State.lean ====
section
/-! SUPPORT. What each named update of the state leaves in each field, so that no later proof unfolds one. -/

namespace Sys2Proof.Laws

open Sys2Proof.Machine

@[simp] theorem emit_fsm (b : Beat) (s : State) : (emit b s).fsm = s.fsm := rfl
@[simp] theorem emit_scheme (b : Beat) (s : State) : (emit b s).scheme = s.scheme := rfl
@[simp] theorem emit_scr (b : Beat) (s : State) : (emit b s).scr = s.scr := rfl
@[simp] theorem emit_lastPol (b : Beat) (s : State) : (emit b s).lastPol = s.lastPol := rfl
@[simp] theorem emit_zeroCnt (b : Beat) (s : State) : (emit b s).zeroCnt = s.zeroCnt := rfl
@[simp] theorem emit_onesPar (b : Beat) (s : State) : (emit b s).onesPar = s.onesPar := rfl
@[simp] theorem emit_dl (b : Beat) (s : State) : (emit b s).dl = s.dl := rfl
@[simp] theorem emit_encLvl (b : Beat) (s : State) : (emit b s).encLvl = s.encLvl := rfl
@[simp] theorem emit_amiPos (b : Beat) (s : State) : (emit b s).amiPos = s.amiPos := rfl
@[simp] theorem emit_errCode (b : Beat) (s : State) : (emit b s).errCode = s.errCode := rfl
@[simp] theorem emit_errIdx (b : Beat) (s : State) : (emit b s).errIdx = s.errIdx := rfl
@[simp] theorem emit_symCnt (b : Beat) (s : State) : (emit b s).symCnt = s.symCnt := rfl
@[simp] theorem emit_q (b : Beat) (s : State) : (emit b s).q = s.q ++ [b] := rfl
@[simp] theorem emit_host (b : Beat) (s : State) : (emit b s).host = s.host := rfl
@[simp] theorem emit_presented (b : Beat) (s : State) : (emit b s).presented = s.presented := rfl

@[simp] theorem errorEntry_fsm (e : ErrCode) (idx : BitVec 16) (s : State) : (errorEntry e idx s).fsm = .error := rfl
@[simp] theorem errorEntry_scheme (e : ErrCode) (idx : BitVec 16) (s : State) : (errorEntry e idx s).scheme = s.scheme := rfl
@[simp] theorem errorEntry_scr (e : ErrCode) (idx : BitVec 16) (s : State) : (errorEntry e idx s).scr = s.scr := rfl
@[simp] theorem errorEntry_lastPol (e : ErrCode) (idx : BitVec 16) (s : State) : (errorEntry e idx s).lastPol = s.lastPol := rfl
@[simp] theorem errorEntry_zeroCnt (e : ErrCode) (idx : BitVec 16) (s : State) : (errorEntry e idx s).zeroCnt = s.zeroCnt := rfl
@[simp] theorem errorEntry_onesPar (e : ErrCode) (idx : BitVec 16) (s : State) : (errorEntry e idx s).onesPar = s.onesPar := rfl
@[simp] theorem errorEntry_dl (e : ErrCode) (idx : BitVec 16) (s : State) : (errorEntry e idx s).dl = [] := rfl
@[simp] theorem errorEntry_encLvl (e : ErrCode) (idx : BitVec 16) (s : State) : (errorEntry e idx s).encLvl = s.encLvl := rfl
@[simp] theorem errorEntry_amiPos (e : ErrCode) (idx : BitVec 16) (s : State) : (errorEntry e idx s).amiPos = s.amiPos := rfl
@[simp] theorem errorEntry_errCode (e : ErrCode) (idx : BitVec 16) (s : State) : (errorEntry e idx s).errCode = e := rfl
@[simp] theorem errorEntry_errIdx (e : ErrCode) (idx : BitVec 16) (s : State) : (errorEntry e idx s).errIdx = idx := rfl
@[simp] theorem errorEntry_symCnt (e : ErrCode) (idx : BitVec 16) (s : State) : (errorEntry e idx s).symCnt = s.symCnt := rfl
@[simp] theorem errorEntry_q (e : ErrCode) (idx : BitVec 16) (s : State) : (errorEntry e idx s).q = s.q := rfl
@[simp] theorem errorEntry_host (e : ErrCode) (idx : BitVec 16) (s : State) : (errorEntry e idx s).host = s.host := rfl
@[simp] theorem errorEntry_presented (e : ErrCode) (idx : BitVec 16) (s : State) : (errorEntry e idx s).presented = s.presented := rfl

@[simp] theorem errorExit_fsm (s : State) : (errorExit s).fsm = .idle := rfl
@[simp] theorem errorExit_scheme (s : State) : (errorExit s).scheme = s.scheme := rfl
@[simp] theorem errorExit_scr (s : State) : (errorExit s).scr = s.scr := rfl
@[simp] theorem errorExit_lastPol (s : State) : (errorExit s).lastPol = s.lastPol := rfl
@[simp] theorem errorExit_zeroCnt (s : State) : (errorExit s).zeroCnt = s.zeroCnt := rfl
@[simp] theorem errorExit_onesPar (s : State) : (errorExit s).onesPar = s.onesPar := rfl
@[simp] theorem errorExit_dl (s : State) : (errorExit s).dl = s.dl := rfl
@[simp] theorem errorExit_encLvl (s : State) : (errorExit s).encLvl = s.encLvl := rfl
@[simp] theorem errorExit_amiPos (s : State) : (errorExit s).amiPos = s.amiPos := rfl
@[simp] theorem errorExit_errCode (s : State) : (errorExit s).errCode = s.errCode := rfl
@[simp] theorem errorExit_errIdx (s : State) : (errorExit s).errIdx = s.errIdx := rfl
@[simp] theorem errorExit_symCnt (s : State) : (errorExit s).symCnt = s.symCnt := rfl
@[simp] theorem errorExit_q (s : State) : (errorExit s).q = s.q := rfl
@[simp] theorem errorExit_host (s : State) : (errorExit s).host = s.host := rfl
@[simp] theorem errorExit_presented (s : State) : (errorExit s).presented = s.presented := rfl

@[simp] theorem closeFrame_fsm (s : State) : (closeFrame s).fsm = .idle := rfl
@[simp] theorem closeFrame_scheme (s : State) : (closeFrame s).scheme = s.scheme := rfl
@[simp] theorem closeFrame_scr (s : State) : (closeFrame s).scr = s.scr := rfl
@[simp] theorem closeFrame_lastPol (s : State) : (closeFrame s).lastPol = s.lastPol := rfl
@[simp] theorem closeFrame_zeroCnt (s : State) : (closeFrame s).zeroCnt = s.zeroCnt := rfl
@[simp] theorem closeFrame_onesPar (s : State) : (closeFrame s).onesPar = s.onesPar := rfl
@[simp] theorem closeFrame_dl (s : State) : (closeFrame s).dl = [] := rfl
@[simp] theorem closeFrame_encLvl (s : State) : (closeFrame s).encLvl = s.encLvl := rfl
@[simp] theorem closeFrame_amiPos (s : State) : (closeFrame s).amiPos = s.amiPos := rfl
@[simp] theorem closeFrame_errCode (s : State) : (closeFrame s).errCode = s.errCode := rfl
@[simp] theorem closeFrame_errIdx (s : State) : (closeFrame s).errIdx = s.errIdx := rfl
@[simp] theorem closeFrame_symCnt (s : State) : (closeFrame s).symCnt = s.symCnt := rfl
@[simp] theorem closeFrame_q (s : State) : (closeFrame s).q = s.q := rfl
@[simp] theorem closeFrame_host (s : State) : (closeFrame s).host = s.host := rfl
@[simp] theorem closeFrame_presented (s : State) : (closeFrame s).presented = s.presented := rfl

@[simp] theorem noteStrayEnd_fsm (s : State) : (noteStrayEnd s).fsm = s.fsm := rfl
@[simp] theorem noteStrayEnd_scheme (s : State) : (noteStrayEnd s).scheme = s.scheme := rfl
@[simp] theorem noteStrayEnd_scr (s : State) : (noteStrayEnd s).scr = s.scr := rfl
@[simp] theorem noteStrayEnd_lastPol (s : State) : (noteStrayEnd s).lastPol = s.lastPol := rfl
@[simp] theorem noteStrayEnd_zeroCnt (s : State) : (noteStrayEnd s).zeroCnt = s.zeroCnt := rfl
@[simp] theorem noteStrayEnd_onesPar (s : State) : (noteStrayEnd s).onesPar = s.onesPar := rfl
@[simp] theorem noteStrayEnd_dl (s : State) : (noteStrayEnd s).dl = s.dl := rfl
@[simp] theorem noteStrayEnd_encLvl (s : State) : (noteStrayEnd s).encLvl = s.encLvl := rfl
@[simp] theorem noteStrayEnd_amiPos (s : State) : (noteStrayEnd s).amiPos = s.amiPos := rfl
@[simp] theorem noteStrayEnd_errCode (s : State) : (noteStrayEnd s).errCode = .invalidCommand := rfl
@[simp] theorem noteStrayEnd_errIdx (s : State) : (noteStrayEnd s).errIdx = s.symCnt := rfl
@[simp] theorem noteStrayEnd_symCnt (s : State) : (noteStrayEnd s).symCnt = s.symCnt := rfl
@[simp] theorem noteStrayEnd_q (s : State) : (noteStrayEnd s).q = s.q := rfl
@[simp] theorem noteStrayEnd_host (s : State) : (noteStrayEnd s).host = s.host := rfl
@[simp] theorem noteStrayEnd_presented (s : State) : (noteStrayEnd s).presented = s.presented := rfl

@[simp] theorem openFrame_fsm (m : BitVec 2) (k : BitVec 3) (s : State) : (openFrame m k s).fsm = .active := rfl
@[simp] theorem openFrame_scheme (m : BitVec 2) (k : BitVec 3) (s : State) : (openFrame m k s).scheme = k := rfl
@[simp] theorem openFrame_scr (m : BitVec 2) (k : BitVec 3) (s : State) : (openFrame m k s).scr = m := rfl
@[simp] theorem openFrame_lastPol (m : BitVec 2) (k : BitVec 3) (s : State) : (openFrame m k s).lastPol = false := rfl
@[simp] theorem openFrame_zeroCnt (m : BitVec 2) (k : BitVec 3) (s : State) : (openFrame m k s).zeroCnt = 0 := rfl
@[simp] theorem openFrame_onesPar (m : BitVec 2) (k : BitVec 3) (s : State) : (openFrame m k s).onesPar = false := rfl
@[simp] theorem openFrame_dl (m : BitVec 2) (k : BitVec 3) (s : State) : (openFrame m k s).dl = [] := rfl
@[simp] theorem openFrame_encLvl (m : BitVec 2) (k : BitVec 3) (s : State) : (openFrame m k s).encLvl = false := rfl
@[simp] theorem openFrame_amiPos (m : BitVec 2) (k : BitVec 3) (s : State) : (openFrame m k s).amiPos = false := rfl
@[simp] theorem openFrame_errCode (m : BitVec 2) (k : BitVec 3) (s : State) : (openFrame m k s).errCode = .none := rfl
@[simp] theorem openFrame_errIdx (m : BitVec 2) (k : BitVec 3) (s : State) : (openFrame m k s).errIdx = 0 := rfl
@[simp] theorem openFrame_symCnt (m : BitVec 2) (k : BitVec 3) (s : State) : (openFrame m k s).symCnt = 0 := rfl
@[simp] theorem openFrame_q (m : BitVec 2) (k : BitVec 3) (s : State) : (openFrame m k s).q = s.q := rfl
@[simp] theorem openFrame_host (m : BitVec 2) (k : BitVec 3) (s : State) : (openFrame m k s).host = s.host := rfl
@[simp] theorem openFrame_presented (m : BitVec 2) (k : BitVec 3) (s : State) : (openFrame m k s).presented = s.presented := rfl

@[simp] theorem countSym_fsm (s : State) : (countSym s).fsm = s.fsm := rfl
@[simp] theorem countSym_scheme (s : State) : (countSym s).scheme = s.scheme := rfl
@[simp] theorem countSym_scr (s : State) : (countSym s).scr = s.scr := rfl
@[simp] theorem countSym_lastPol (s : State) : (countSym s).lastPol = s.lastPol := rfl
@[simp] theorem countSym_zeroCnt (s : State) : (countSym s).zeroCnt = s.zeroCnt := rfl
@[simp] theorem countSym_onesPar (s : State) : (countSym s).onesPar = s.onesPar := rfl
@[simp] theorem countSym_dl (s : State) : (countSym s).dl = s.dl := rfl
@[simp] theorem countSym_encLvl (s : State) : (countSym s).encLvl = s.encLvl := rfl
@[simp] theorem countSym_amiPos (s : State) : (countSym s).amiPos = s.amiPos := rfl
@[simp] theorem countSym_errCode (s : State) : (countSym s).errCode = s.errCode := rfl
@[simp] theorem countSym_errIdx (s : State) : (countSym s).errIdx = s.errIdx := rfl
@[simp] theorem countSym_symCnt (s : State) : (countSym s).symCnt = s.symCnt + 1 := rfl
@[simp] theorem countSym_q (s : State) : (countSym s).q = s.q := rfl
@[simp] theorem countSym_host (s : State) : (countSym s).host = s.host := rfl
@[simp] theorem countSym_presented (s : State) : (countSym s).presented = s.presented := rfl

@[simp] theorem b8zsOne_fsm (s : State) : (b8zsOne s).fsm = s.fsm := rfl
@[simp] theorem b8zsOne_scheme (s : State) : (b8zsOne s).scheme = s.scheme := rfl
@[simp] theorem b8zsOne_scr (s : State) : (b8zsOne s).scr = s.scr := rfl
@[simp] theorem b8zsOne_lastPol (s : State) : (b8zsOne s).lastPol = xor1 s.lastPol := rfl
@[simp] theorem b8zsOne_zeroCnt (s : State) : (b8zsOne s).zeroCnt = 0 := rfl
@[simp] theorem b8zsOne_onesPar (s : State) : (b8zsOne s).onesPar = s.onesPar := rfl
@[simp] theorem b8zsOne_dl (s : State) : (b8zsOne s).dl = s.dl ++ [polsym (xor1 s.lastPol)] := rfl
@[simp] theorem b8zsOne_encLvl (s : State) : (b8zsOne s).encLvl = s.encLvl := rfl
@[simp] theorem b8zsOne_amiPos (s : State) : (b8zsOne s).amiPos = s.amiPos := rfl
@[simp] theorem b8zsOne_errCode (s : State) : (b8zsOne s).errCode = s.errCode := rfl
@[simp] theorem b8zsOne_errIdx (s : State) : (b8zsOne s).errIdx = s.errIdx := rfl
@[simp] theorem b8zsOne_symCnt (s : State) : (b8zsOne s).symCnt = s.symCnt := rfl
@[simp] theorem b8zsOne_q (s : State) : (b8zsOne s).q = s.q := rfl
@[simp] theorem b8zsOne_host (s : State) : (b8zsOne s).host = s.host := rfl
@[simp] theorem b8zsOne_presented (s : State) : (b8zsOne s).presented = s.presented := rfl

@[simp] theorem pushZero_fsm (s : State) : (pushZero s).fsm = s.fsm := rfl
@[simp] theorem pushZero_scheme (s : State) : (pushZero s).scheme = s.scheme := rfl
@[simp] theorem pushZero_scr (s : State) : (pushZero s).scr = s.scr := rfl
@[simp] theorem pushZero_lastPol (s : State) : (pushZero s).lastPol = s.lastPol := rfl
@[simp] theorem pushZero_zeroCnt (s : State) : (pushZero s).zeroCnt = s.zeroCnt + 1 := rfl
@[simp] theorem pushZero_onesPar (s : State) : (pushZero s).onesPar = s.onesPar := rfl
@[simp] theorem pushZero_dl (s : State) : (pushZero s).dl = s.dl ++ [.zero] := rfl
@[simp] theorem pushZero_encLvl (s : State) : (pushZero s).encLvl = s.encLvl := rfl
@[simp] theorem pushZero_amiPos (s : State) : (pushZero s).amiPos = s.amiPos := rfl
@[simp] theorem pushZero_errCode (s : State) : (pushZero s).errCode = s.errCode := rfl
@[simp] theorem pushZero_errIdx (s : State) : (pushZero s).errIdx = s.errIdx := rfl
@[simp] theorem pushZero_symCnt (s : State) : (pushZero s).symCnt = s.symCnt := rfl
@[simp] theorem pushZero_q (s : State) : (pushZero s).q = s.q := rfl
@[simp] theorem pushZero_host (s : State) : (pushZero s).host = s.host := rfl
@[simp] theorem pushZero_presented (s : State) : (pushZero s).presented = s.presented := rfl

@[simp] theorem b8zsSubstitute_fsm (s : State) : (b8zsSubstitute s).fsm = s.fsm := rfl
@[simp] theorem b8zsSubstitute_scheme (s : State) : (b8zsSubstitute s).scheme = s.scheme := rfl
@[simp] theorem b8zsSubstitute_scr (s : State) : (b8zsSubstitute s).scr = s.scr := rfl
@[simp] theorem b8zsSubstitute_lastPol (s : State) : (b8zsSubstitute s).lastPol = s.lastPol := rfl
@[simp] theorem b8zsSubstitute_zeroCnt (s : State) : (b8zsSubstitute s).zeroCnt = 0 := rfl
@[simp] theorem b8zsSubstitute_onesPar (s : State) : (b8zsSubstitute s).onesPar = s.onesPar := rfl
@[simp] theorem b8zsSubstitute_dl (s : State) : (b8zsSubstitute s).dl = b8zsPattern s.lastPol := rfl
@[simp] theorem b8zsSubstitute_encLvl (s : State) : (b8zsSubstitute s).encLvl = s.encLvl := rfl
@[simp] theorem b8zsSubstitute_amiPos (s : State) : (b8zsSubstitute s).amiPos = s.amiPos := rfl
@[simp] theorem b8zsSubstitute_errCode (s : State) : (b8zsSubstitute s).errCode = s.errCode := rfl
@[simp] theorem b8zsSubstitute_errIdx (s : State) : (b8zsSubstitute s).errIdx = s.errIdx := rfl
@[simp] theorem b8zsSubstitute_symCnt (s : State) : (b8zsSubstitute s).symCnt = s.symCnt := rfl
@[simp] theorem b8zsSubstitute_q (s : State) : (b8zsSubstitute s).q = s.q := rfl
@[simp] theorem b8zsSubstitute_host (s : State) : (b8zsSubstitute s).host = s.host := rfl
@[simp] theorem b8zsSubstitute_presented (s : State) : (b8zsSubstitute s).presented = s.presented := rfl

@[simp] theorem hdb3One_fsm (s : State) : (hdb3One s).fsm = s.fsm := rfl
@[simp] theorem hdb3One_scheme (s : State) : (hdb3One s).scheme = s.scheme := rfl
@[simp] theorem hdb3One_scr (s : State) : (hdb3One s).scr = s.scr := rfl
@[simp] theorem hdb3One_lastPol (s : State) : (hdb3One s).lastPol = xor1 s.lastPol := rfl
@[simp] theorem hdb3One_zeroCnt (s : State) : (hdb3One s).zeroCnt = 0 := rfl
@[simp] theorem hdb3One_onesPar (s : State) : (hdb3One s).onesPar = xor1 s.onesPar := rfl
@[simp] theorem hdb3One_dl (s : State) : (hdb3One s).dl = s.dl ++ [polsym (xor1 s.lastPol)] := rfl
@[simp] theorem hdb3One_encLvl (s : State) : (hdb3One s).encLvl = s.encLvl := rfl
@[simp] theorem hdb3One_amiPos (s : State) : (hdb3One s).amiPos = s.amiPos := rfl
@[simp] theorem hdb3One_errCode (s : State) : (hdb3One s).errCode = s.errCode := rfl
@[simp] theorem hdb3One_errIdx (s : State) : (hdb3One s).errIdx = s.errIdx := rfl
@[simp] theorem hdb3One_symCnt (s : State) : (hdb3One s).symCnt = s.symCnt := rfl
@[simp] theorem hdb3One_q (s : State) : (hdb3One s).q = s.q := rfl
@[simp] theorem hdb3One_host (s : State) : (hdb3One s).host = s.host := rfl
@[simp] theorem hdb3One_presented (s : State) : (hdb3One s).presented = s.presented := rfl

@[simp] theorem afterPop_fsm (n : Nat) (s : State) : (afterPop n s).fsm = s.fsm := rfl
@[simp] theorem afterPop_scheme (n : Nat) (s : State) : (afterPop n s).scheme = s.scheme := rfl
@[simp] theorem afterPop_scr (n : Nat) (s : State) : (afterPop n s).scr = s.scr := rfl
@[simp] theorem afterPop_lastPol (n : Nat) (s : State) : (afterPop n s).lastPol = s.lastPol := rfl
@[simp] theorem afterPop_zeroCnt (n : Nat) (s : State) : (afterPop n s).zeroCnt = s.zeroCnt := rfl
@[simp] theorem afterPop_onesPar (n : Nat) (s : State) : (afterPop n s).onesPar = s.onesPar := rfl
@[simp] theorem afterPop_dl (n : Nat) (s : State) : (afterPop n s).dl = if s.dl.length = n then s.dl.tail else s.dl := rfl
@[simp] theorem afterPop_encLvl (n : Nat) (s : State) : (afterPop n s).encLvl = s.encLvl := rfl
@[simp] theorem afterPop_amiPos (n : Nat) (s : State) : (afterPop n s).amiPos = s.amiPos := rfl
@[simp] theorem afterPop_errCode (n : Nat) (s : State) : (afterPop n s).errCode = s.errCode := rfl
@[simp] theorem afterPop_errIdx (n : Nat) (s : State) : (afterPop n s).errIdx = s.errIdx := rfl
@[simp] theorem afterPop_symCnt (n : Nat) (s : State) : (afterPop n s).symCnt = s.symCnt := rfl
@[simp] theorem afterPop_q (n : Nat) (s : State) : (afterPop n s).q = s.q := rfl
@[simp] theorem afterPop_host (n : Nat) (s : State) : (afterPop n s).host = s.host := rfl
@[simp] theorem afterPop_presented (n : Nat) (s : State) : (afterPop n s).presented = s.presented := rfl

@[simp] theorem endCycle_fsm (s : State) : (endCycle s).fsm = s.fsm := rfl
@[simp] theorem endCycle_scheme (s : State) : (endCycle s).scheme = s.scheme := rfl
@[simp] theorem endCycle_scr (s : State) : (endCycle s).scr = s.scr := rfl
@[simp] theorem endCycle_lastPol (s : State) : (endCycle s).lastPol = s.lastPol := rfl
@[simp] theorem endCycle_zeroCnt (s : State) : (endCycle s).zeroCnt = s.zeroCnt := rfl
@[simp] theorem endCycle_onesPar (s : State) : (endCycle s).onesPar = s.onesPar := rfl
@[simp] theorem endCycle_dl (s : State) : (endCycle s).dl = s.dl := rfl
@[simp] theorem endCycle_encLvl (s : State) : (endCycle s).encLvl = s.encLvl := rfl
@[simp] theorem endCycle_amiPos (s : State) : (endCycle s).amiPos = s.amiPos := rfl
@[simp] theorem endCycle_errCode (s : State) : (endCycle s).errCode = s.errCode := rfl
@[simp] theorem endCycle_errIdx (s : State) : (endCycle s).errIdx = s.errIdx := rfl
@[simp] theorem endCycle_symCnt (s : State) : (endCycle s).symCnt = s.symCnt := rfl
@[simp] theorem endCycle_q (s : State) : (endCycle s).q = s.q.tail := rfl
@[simp] theorem endCycle_host (s : State) : (endCycle s).host = s.host.tail := rfl
@[simp] theorem endCycle_presented (s : State) : (endCycle s).presented = s.presented ++ s.q.take 1 := rfl

@[simp] theorem untilReady_fsm (s : State) : (untilReady s).fsm = s.fsm := rfl
@[simp] theorem untilReady_scheme (s : State) : (untilReady s).scheme = s.scheme := rfl
@[simp] theorem untilReady_scr (s : State) : (untilReady s).scr = s.scr := rfl
@[simp] theorem untilReady_lastPol (s : State) : (untilReady s).lastPol = s.lastPol := rfl
@[simp] theorem untilReady_zeroCnt (s : State) : (untilReady s).zeroCnt = s.zeroCnt := rfl
@[simp] theorem untilReady_onesPar (s : State) : (untilReady s).onesPar = s.onesPar := rfl
@[simp] theorem untilReady_dl (s : State) : (untilReady s).dl = s.dl := rfl
@[simp] theorem untilReady_encLvl (s : State) : (untilReady s).encLvl = s.encLvl := rfl
@[simp] theorem untilReady_amiPos (s : State) : (untilReady s).amiPos = s.amiPos := rfl
@[simp] theorem untilReady_errCode (s : State) : (untilReady s).errCode = s.errCode := rfl
@[simp] theorem untilReady_errIdx (s : State) : (untilReady s).errIdx = s.errIdx := rfl
@[simp] theorem untilReady_symCnt (s : State) : (untilReady s).symCnt = s.symCnt := rfl
@[simp] theorem untilReady_q (s : State) : (untilReady s).q = s.q.drop (s.q.length - 1) := rfl
@[simp] theorem untilReady_host (s : State) : (untilReady s).host = s.host := rfl
@[simp] theorem untilReady_presented (s : State) : (untilReady s).presented = s.presented ++ s.q.take (s.q.length - 1) := rfl

@[simp] theorem presentWord_fsm (c : Word) (s : State) : (presentWord c s).fsm = s.fsm := rfl
@[simp] theorem presentWord_scheme (c : Word) (s : State) : (presentWord c s).scheme = s.scheme := rfl
@[simp] theorem presentWord_scr (c : Word) (s : State) : (presentWord c s).scr = s.scr := rfl
@[simp] theorem presentWord_lastPol (c : Word) (s : State) : (presentWord c s).lastPol = s.lastPol := rfl
@[simp] theorem presentWord_zeroCnt (c : Word) (s : State) : (presentWord c s).zeroCnt = s.zeroCnt := rfl
@[simp] theorem presentWord_onesPar (c : Word) (s : State) : (presentWord c s).onesPar = s.onesPar := rfl
@[simp] theorem presentWord_dl (c : Word) (s : State) : (presentWord c s).dl = s.dl := rfl
@[simp] theorem presentWord_encLvl (c : Word) (s : State) : (presentWord c s).encLvl = s.encLvl := rfl
@[simp] theorem presentWord_amiPos (c : Word) (s : State) : (presentWord c s).amiPos = s.amiPos := rfl
@[simp] theorem presentWord_errCode (c : Word) (s : State) : (presentWord c s).errCode = s.errCode := rfl
@[simp] theorem presentWord_errIdx (c : Word) (s : State) : (presentWord c s).errIdx = s.errIdx := rfl
@[simp] theorem presentWord_symCnt (c : Word) (s : State) : (presentWord c s).symCnt = s.symCnt := rfl
@[simp] theorem presentWord_q (c : Word) (s : State) : (presentWord c s).q = s.q := rfl
@[simp] theorem presentWord_host (c : Word) (s : State) : (presentWord c s).host = { rst := false, cmdValid := true, cmd := c } :: s.host.tail := rfl
@[simp] theorem presentWord_presented (c : Word) (s : State) : (presentWord c s).presented = s.presented := rfl

@[simp] theorem registers_fsm (s : State) : (registers s).fsm = s.fsm := rfl
@[simp] theorem registers_scheme (s : State) : (registers s).scheme = s.scheme := rfl
@[simp] theorem registers_scr (s : State) : (registers s).scr = s.scr := rfl
@[simp] theorem registers_lastPol (s : State) : (registers s).lastPol = s.lastPol := rfl
@[simp] theorem registers_zeroCnt (s : State) : (registers s).zeroCnt = s.zeroCnt := rfl
@[simp] theorem registers_onesPar (s : State) : (registers s).onesPar = s.onesPar := rfl
@[simp] theorem registers_dl (s : State) : (registers s).dl = s.dl := rfl
@[simp] theorem registers_encLvl (s : State) : (registers s).encLvl = s.encLvl := rfl
@[simp] theorem registers_amiPos (s : State) : (registers s).amiPos = s.amiPos := rfl
@[simp] theorem registers_errCode (s : State) : (registers s).errCode = s.errCode := rfl
@[simp] theorem registers_errIdx (s : State) : (registers s).errIdx = s.errIdx := rfl
@[simp] theorem registers_symCnt (s : State) : (registers s).symCnt = s.symCnt := rfl
@[simp] theorem registers_q (s : State) : (registers s).q = [] := rfl
@[simp] theorem registers_host (s : State) : (registers s).host = [] := rfl
@[simp] theorem registers_presented (s : State) : (registers s).presented = [] := rfl

/-- A reset edge leaves the reset state but for the host's side of the ports. -/
theorem resetEdge_eq (s : State) :
    resetEdge s = { State.reset with presented := s.presented ++ s.q.take 1, host := s.host.tail } := rfl

@[simp] theorem resetEdge_q (s : State) : (resetEdge s).q = [] := rfl
@[simp] theorem resetEdge_registers (s : State) : registers (resetEdge s) = State.reset := rfl

end Sys2Proof.Laws
end

