-- ==== Sys2Proof/Laws/Ops.lean ====
section
/-! SUPPORT. What each shared operation can do, said once: the sequencing, the encoder step, the flush, the delay line,
the symbol commands, END, one command word, and one clock edge. -/

namespace Sys2Proof.Laws

open Sys2Proof.Machine

/-! Sequencing -/

@[simp] theorem andThen_next (s : State) (f : State → Result) : andThen (.next s) f = f s := rfl

theorem andThen_eq_next {r : Result} {f : State → Result} {t : State} (h : andThen r f = .next t) :
    ∃ s, r = .next s ∧ f s = .next t := by
  cases r with
  | next s => exact ⟨s, rfl, h⟩
  | fault e => cases h
  | refused e => cases h

/-! Codes -/

@[simp] theorem scheme_ofCode_code (k : Scheme) : Scheme.ofCode k.code = some k := by cases k <;> rfl

@[simp] theorem scrMode_ofCode_code (m : ScrMode) : ScrMode.ofCode m.code = some m := by cases m <;> rfl

@[simp] theorem symbol_ofCode_code (d : Symbol) : Symbol.ofCode d.code = d := by cases d <;> rfl

theorem scheme_of_ofCode {k : BitVec 3} {x : Scheme} (h : Scheme.ofCode k = some x) : k = x.code := by
  revert k x; decide +revert

theorem scrMode_of_ofCode {m : BitVec 2} {x : ScrMode} (h : ScrMode.ofCode m = some x) : m = x.code := by
  revert m x; decide +revert

/-- A valid configuration is a recognised scheme with no scrambler, or AMI with a recognised mode (R67). -/
theorem validConfig_cases {k : BitVec 3} {m : BitVec 2} (h : validConfig k m = true) :
    ∃ x y, k = Scheme.code x ∧ m = ScrMode.code y ∧ (y = .none ∨ x = .ami) := by
  have hall : ∀ (k : BitVec 3) (m : BitVec 2), validConfig k m = true →
      (Scheme.ofCode k).isSome = true ∧ (ScrMode.ofCode m).isSome = true ∧ (m = 0b00#2 ∨ k = 0b100#3) := by decide
  obtain ⟨hk, hm, hkm⟩ := hall k m h
  obtain ⟨x, hx⟩ := Option.isSome_iff_exists.mp hk
  obtain ⟨y, hy⟩ := Option.isSome_iff_exists.mp hm
  refine ⟨x, y, scheme_of_ofCode hx, scrMode_of_ofCode hy, hkm.imp ?_ ?_⟩
  · rintro rfl; exact (Option.some.inj hy).symm
  · rintro rfl; exact (Option.some.inj hx).symm

/-! The encoder (R120 to R128) -/

/-- The symbols that the encoder of scheme `k` accepts (R120). -/
def Encodable (k : Scheme) (d : Symbol) : Prop := k = .ami ∨ d = .zero ∨ d = .one

/-- What the encoder step leaves: one Data beat with the levels `ENCODE_k` gives, and at most one encoder register. -/
def encoded (k : Scheme) (d : Symbol) (ls : Levels) (s : State) : State :=
  { s with
    encLvl := levelAfter k s.encLvl [d], amiPos := polarityAfter k s.amiPos [d], q := s.q ++ [.data d ls] }

/-- R120: in a scheme that accepts the symbol the encoder step completes. -/
theorem enc_next {k : Scheme} {d : Symbol} {s : State} (hk : s.scheme = k.code) (hd : Encodable k d) :
    ∃ ls, enc d s = .next (encoded k d ls s) ∧
      beatLevels (.data d ls) = encodeFrom k (lineLevel s.encLvl) s.amiPos [d] := by
  obtain ⟨_, _, _, _, _, _, _, lvl, pos, _, _, _, _, _, _⟩ := s
  subst hk
  cases k <;> cases d <;> simp_all [Encodable] <;>
    first
      | exact ⟨_, rfl, rfl⟩
      | (cases lvl <;> exact ⟨_, rfl, rfl⟩)
      | (cases pos <;> exact ⟨_, rfl, rfl⟩)

/-- R120: an encoder step that completes had a recognised scheme and a symbol it accepts. -/
theorem enc_spec {d : Symbol} {s t : State} (h : enc d s = .next t) :
    ∃ k ls, s.scheme = Scheme.code k ∧ Encodable k d ∧ t = encoded k d ls s ∧
      beatLevels (.data d ls) = encodeFrom k (lineLevel s.encLvl) s.amiPos [d] := by
  have hk : ∃ k, Scheme.ofCode s.scheme = some k ∧ Encodable k d := by
    unfold enc at h
    split at h
    case h_6 => cases h
    all_goals refine ⟨_, ‹_›, ?_⟩
    all_goals cases d <;> simp_all [Encodable, encNrzL, encNrzI, encManchester, encDiffManchester, encoderAssertion]
  obtain ⟨k, hk, hd⟩ := hk
  obtain ⟨ls, he, hl⟩ := enc_next (scheme_of_ofCode hk) hd
  refine ⟨k, ls, scheme_of_ofCode hk, hd, ?_, hl⟩
  rw [h] at he
  exact Host.Outcome.next.inj he

/-- R125 to R128: the encoder step under AMI. -/
theorem enc_ami (d : Symbol) {s : State} (h : s.scheme = Scheme.code .ami) :
    enc d s = .next { s with amiPos := amiAfter d s.amiPos, q := s.q ++ [amiBeat d s.amiPos] } := by
  obtain ⟨_, _, _, _, _, _, _, _, pos, _, _, _, _, _, _⟩ := s
  subst h
  cases d <;> cases pos <;> rfl

/-- R130: the reference function one symbol at a time. -/
theorem encodeFrom_cons (k : Scheme) (lvl pos : Bool) (d : Symbol) (t : List Symbol) (hd : Encodable k d) :
    encodeFrom k (lineLevel lvl) pos (d :: t) =
      encodeFrom k (lineLevel lvl) pos [d] ++
        encodeFrom k (lineLevel (levelAfter k lvl [d])) (polarityAfter k pos [d]) t := by
  cases k <;> cases d <;> simp_all [Encodable, encodeFrom, levelAfter, polarityAfter, amiAfter] <;>
    cases lvl <;> rfl

theorem levelAfter_cons (k : Scheme) (lvl : Bool) (d : Symbol) (t : List Symbol) :
    levelAfter k lvl (d :: t) = levelAfter k (levelAfter k lvl [d]) t := by
  unfold levelAfter; split <;> rfl

theorem polarityAfter_cons (k : Scheme) (pos : Bool) (d : Symbol) (t : List Symbol) :
    polarityAfter k pos (d :: t) = polarityAfter k (polarityAfter k pos [d]) t := by
  unfold polarityAfter; split <;> rfl

/-- What the flush leaves (R90). -/
def flushed (k : Scheme) (ds : List Symbol) (beats : List Beat) (s : State) : State :=
  { s with encLvl := levelAfter k s.encLvl ds, amiPos := polarityAfter k s.amiPos ds, q := s.q ++ beats }

/-- The beats of a flush: Data beats that carry the symbols and the levels `ENCODE_k` gives. -/
structure FlushBeats (k : Scheme) (lvl pos : Bool) (ds : List Symbol) (beats : List Beat) : Prop where
  noDone : ∀ b ∈ beats, isDone b = false
  symbols : beats.flatMap beatSymbols = ds
  levels : beats.flatMap beatLevels = encodeFrom k (lineLevel lvl) pos ds
  length : beats.length = ds.length

theorem flushBeats_nil (k : Scheme) (lvl pos : Bool) : FlushBeats k lvl pos [] [] :=
  ⟨by simp, rfl, rfl, rfl⟩

theorem flushBeats_cons {k : Scheme} {lvl pos : Bool} {d : Symbol} {ls : Levels} {ds : List Symbol} {beats : List Beat}
    (hd : Encodable k d) (hl : beatLevels (.data d ls) = encodeFrom k (lineLevel lvl) pos [d])
    (h : FlushBeats k (levelAfter k lvl [d]) (polarityAfter k pos [d]) ds beats) :
    FlushBeats k lvl pos (d :: ds) (.data d ls :: beats) where
  noDone := by
    intro b hb
    rcases List.mem_cons.mp hb with rfl | hb
    · rfl
    · exact h.noDone b hb
  symbols := by rw [List.flatMap_cons, h.symbols]; rfl
  levels := by rw [List.flatMap_cons, h.levels, hl, encodeFrom_cons k lvl pos d ds hd]
  length := by simp [h.length]

/-- R90: the flush completes on symbols that the scheme accepts. -/
theorem flush_next {k : Scheme} {ds : List Symbol} :
    ∀ {s : State}, s.scheme = k.code → (∀ d ∈ ds, Encodable k d) →
      ∃ beats, flush ds s = .next (flushed k ds beats s) ∧ FlushBeats k s.encLvl s.amiPos ds beats := by
  induction ds with
  | nil =>
    intro s _ _
    refine ⟨[], ?_, flushBeats_nil _ _ _⟩
    simp [flush, flushed, levelAfter, polarityAfter]
  | cons d ds ih =>
    intro s hk hd
    obtain ⟨ls, he, hl⟩ := enc_next hk (hd d (by simp))
    obtain ⟨beats, hf, hb⟩ := ih (s := encoded k d ls s) hk fun x hx => hd x (by simp [hx])
    refine ⟨.data d ls :: beats, ?_, flushBeats_cons (hd d (by simp)) hl hb⟩
    simp only [flush, he, andThen_next, hf]
    rw [flushed, flushed, levelAfter_cons, polarityAfter_cons]
    simp [encoded]

/-- R90: a flush that completes had symbols that the scheme accepts, or none. -/
theorem flush_spec {ds : List Symbol} :
    ∀ {s t : State}, flush ds s = .next t →
      (ds = [] ∧ t = s) ∨
        ∃ k beats, s.scheme = Scheme.code k ∧ (∀ d ∈ ds, Encodable k d) ∧ t = flushed k ds beats s ∧
          FlushBeats k s.encLvl s.amiPos ds beats := by
  induction ds with
  | nil => intro s t h; exact .inl ⟨rfl, (Host.Outcome.next.inj h).symm⟩
  | cons d ds ih =>
    intro s t h
    obtain ⟨u, he, hf⟩ := andThen_eq_next h
    obtain ⟨k, ls, hk, hd, rfl, hl⟩ := enc_spec he
    have hall : ∀ x ∈ d :: ds, Encodable k x := by
      intro x hx
      rcases List.mem_cons.mp hx with rfl | hx
      · exact hd
      rcases ih hf with ⟨rfl, -⟩ | ⟨k', _, hk', hd', _⟩
      · cases hx
      · have hkk : k' = k := by
          have := hk.symm.trans hk'
          revert this; cases k <;> cases k' <;> decide
        exact hkk ▸ hd' x hx
    obtain ⟨beats, hn, hb⟩ := flush_next hk hall
    exact .inr ⟨k, beats, hk, hall, (Host.Outcome.next.inj (h.symm.trans hn)), hb⟩

/-! The delay line (R102) -/

theorem throughLine_filling {n : Nat} {upd : State → State} {s : State} (h : s.dl.length < n) (hn : n ≤ Config.dlDepth) :
    throughLine n upd s = .next (upd s) := by
  have hp : afterPop n s = s := by unfold afterPop; rw [if_neg (by omega)]
  rw [throughLine, hp, if_pos (by omega), popped, if_neg (by omega)]
  rfl

theorem throughLine_full {n : Nat} {upd : State → State} {s : State} {d : Symbol} {rest : List Symbol}
    (hs : s.dl = d :: rest) (h : rest.length + 1 = n) (hn : n ≤ Config.dlDepth) :
    throughLine n upd s = enc d (upd { s with dl := rest }) := by
  have hp : afterPop n s = { s with dl := rest } := by
    unfold afterPop; rw [if_pos (by simp [hs, h])]; simp [hs]
  rw [throughLine, hp, if_pos (by simp only; omega), popped, if_pos (by simp [hs, h]), hs]
  rfl

/-- R102: what a scrambler step that completes did. -/
theorem throughLine_spec {n : Nat} {upd : State → State} {s t : State} (h : throughLine n upd s = .next t) :
    (s.dl.length ≠ n ∧ s.dl.length < Config.dlDepth ∧ t = upd s) ∨
      (s.dl = [] ∧ n = 0 ∧ t = upd s) ∨
      ∃ d rest, s.dl = d :: rest ∧ rest.length + 1 = n ∧ rest.length < Config.dlDepth ∧
        enc d (upd { s with dl := rest }) = .next t := by
  unfold throughLine at h
  split at h
  case isFalse => cases h
  rename_i hlen
  by_cases hn : s.dl.length = n
  · cases hdl : s.dl with
    | nil =>
      refine .inr (.inl ⟨rfl, by simpa [hdl] using hn.symm, ?_⟩)
      have hp : afterPop n s = s := by unfold afterPop; cases s; simp_all
      simp [popped, hdl, encPopped, hp] at h
      exact h.symm
    | cons d rest =>
      have hr : rest.length + 1 = n := by simpa [hdl] using hn
      have hp : afterPop n s = { s with dl := rest } := by unfold afterPop; simp [hdl, hr]
      refine .inr (.inr ⟨d, rest, rfl, hr, by simpa [hp] using hlen, ?_⟩)
      simpa [popped, hdl, hr, encPopped, hp] using h
  · have hp : afterPop n s = s := by unfold afterPop; rw [if_neg hn]
    refine .inl ⟨hn, by simpa [hp] using hlen, ?_⟩
    simpa [popped, hn, encPopped, hp, eq_comm] using h

/-- The registers a scrambler update can write. -/
structure ScramblerOnly (s t : State) : Prop where
  fsm : t.fsm = s.fsm
  scheme : t.scheme = s.scheme
  scr : t.scr = s.scr
  encLvl : t.encLvl = s.encLvl
  amiPos : t.amiPos = s.amiPos
  errCode : t.errCode = s.errCode
  errIdx : t.errIdx = s.errIdx
  symCnt : t.symCnt = s.symCnt
  q : t.q = s.q
  host : t.host = s.host
  presented : t.presented = s.presented

theorem b8zsOne_only (s : State) : ScramblerOnly s (b8zsOne s) := by constructor <;> rfl

theorem hdb3One_only (s : State) : ScramblerOnly s (hdb3One s) := by constructor <;> rfl

theorem b8zsZero_only (s : State) : ScramblerOnly s (b8zsZero s) := by
  unfold b8zsZero; split <;> constructor <;> rfl

theorem hdb3Zero_only (s : State) : ScramblerOnly s (hdb3Zero s) := by
  unfold hdb3Zero hdb3Substitute; split
  · split <;> constructor <;> rfl
  · constructor <;> rfl

/-- R104, R105: the eighth zero is substituted, every other one is appended. -/
theorem b8zsZero_cases (s : State) :
    b8zsZero s = if s.zeroCnt = 7 then b8zsSubstitute (pushZero s) else pushZero s := by
  unfold b8zsZero
  rw [pushZero_zeroCnt]
  have : ∀ z : BitVec 4, (z + 1).toNat = Config.b8zsRun ↔ z = 7 := by decide
  simp only [this]

/-- R107: the fourth zero is substituted, every other one is appended. -/
theorem hdb3Zero_cases (s : State) :
    hdb3Zero s = if s.zeroCnt = 3 then hdb3Substitute (pushZero s) else pushZero s := by
  unfold hdb3Zero
  rw [pushZero_zeroCnt]
  have : ∀ z : BitVec 4, (z + 1).toNat = Config.hdb3Run ↔ z = 3 := by decide
  simp only [this]

/-! SYM (R85 to R89) -/

/-- The update of the scrambler on a symbol `0` or `1`, for each mode. -/
def scramblerUpdate (m : ScrMode) (d : Symbol) : State → State :=
  match m, d with
  | .b8zs, .one => b8zsOne
  | .b8zs, _ => b8zsZero
  | .hdb3, .one => hdb3One
  | .hdb3, _ => hdb3Zero
  | .none, _ => id

theorem scramblerUpdate_only (m : ScrMode) (d : Symbol) (s : State) : ScramblerOnly s (scramblerUpdate m d s) := by
  cases m <;> cases d <;>
    first
      | exact b8zsOne_only s
      | exact b8zsZero_only s
      | exact hdb3One_only s
      | exact hdb3Zero_only s
      | (constructor <;> rfl)

/-- R89, R100: an accepted symbol that completes went straight to the encoder or through a scrambler of depth N. -/
theorem acceptedSymbol_spec {d : Symbol} {s t : State} (h : acceptedSymbol d s = .next t) :
    (s.scr = ScrMode.code .none ∧ enc d s = .next t) ∨
      ∃ m, m ≠ .none ∧ s.scr = ScrMode.code m ∧ (d = .zero ∨ d = .one) ∧
        throughLine (depth m) (scramblerUpdate m d) s = .next t := by
  unfold acceptedSymbol at h
  split at h
  · exact .inl ⟨scrMode_of_ofCode ‹_›, h⟩
  · refine .inr ⟨.b8zs, by decide, scrMode_of_ofCode ‹_›, ?_⟩
    cases d <;> first | exact ⟨by simp, h⟩ | cases h
  · refine .inr ⟨.hdb3, by decide, scrMode_of_ofCode ‹_›, ?_⟩
    cases d <;> first | exact ⟨by simp, h⟩ | cases h
  · cases h

/-- R89, R102: a `0` or `1` in an ACTIVE frame with a scrambler is counted and goes through its delay line. -/
theorem symCommand_scrambled {m : ScrMode} {d : Symbol} {s : State} (ha : s.fsm = .active) (hm : m ≠ .none)
    (hs : s.scr = ScrMode.code m) (hd : d = .zero ∨ d = .one) :
    symCommand d s = throughLine (depth m) (scramblerUpdate m d) (countSym s) := by
  simp only [symCommand, ha, symActive, accepts, acceptedSymbol, countSym_scr, hs, scrMode_ofCode_code]
  cases m with
  | none => exact absurd rfl hm
  | b8zs => rcases hd with rfl | rfl <;> rfl
  | hdb3 => rcases hd with rfl | rfl <;> rfl

/-- R85 to R89: what a symbol command that completes did. -/
theorem symCommand_spec {d : Symbol} {s t : State} (h : symCommand d s = .next t) :
    (s.fsm = .idle ∧ t = errorEntry .invalidCommand s.symCnt (countSym s)) ∨
      (s.fsm = .error ∧ t = countSym s) ∨
      (s.fsm = .active ∧ accepts s.scheme s.scr d = false ∧
        t = errorEntry .invalidSymbol s.symCnt (countSym s)) ∨
      (s.fsm = .active ∧ accepts s.scheme s.scr d = true ∧ acceptedSymbol d (countSym s) = .next t) := by
  unfold symCommand at h
  split at h
  · exact .inl ⟨‹_›, (Host.Outcome.next.inj h).symm⟩
  · exact .inr (.inl ⟨‹_›, (Host.Outcome.next.inj h).symm⟩)
  · unfold symActive at h
    split at h <;> rename_i hacc
    · exact .inr (.inr (.inr ⟨‹_›, hacc, h⟩))
    · exact .inr (.inr (.inl ⟨‹_›, Bool.eq_false_iff.mpr hacc, (Host.Outcome.next.inj h).symm⟩))

/-! END (R90 to R92) -/

theorem execEnd_spec {s t : State} (h : execEnd s = .next t) :
    (s.fsm = .idle ∧ t = emit (.done .invalidCommand) (noteStrayEnd s)) ∨
      (s.fsm = .error ∧ t = emit (.done s.errCode) (errorExit s)) ∨
      (s.fsm = .active ∧ ∃ u, flush s.dl s = .next u ∧ t = emit (.done .none) (closeFrame u)) := by
  unfold execEnd at h
  split at h
  · obtain ⟨u, hu, ht⟩ := andThen_eq_next h
    exact .inr (.inr ⟨‹_›, u, hu, (Host.Outcome.next.inj ht).symm⟩)
  · exact .inr (.inl ⟨‹_›, (Host.Outcome.next.inj h).symm⟩)
  · exact .inl ⟨‹_›, (Host.Outcome.next.inj h).symm⟩

/-! One command word (R80) -/

theorem exec_symInstr (d : Symbol) (s : State) : exec (symInstr d) s = symCommand d s := by cases d <;> rfl

/-- Every command is NOP, START, END or the SYM of a symbol. -/
theorem instr_cases (i : Instr) :
    i = .nop ∨ (∃ m k, i = .start m k) ∨ (∃ d, i = symInstr d) ∨ i = .endFrame := by
  cases i
  · exact .inl rfl
  · exact .inr (.inl ⟨_, _, rfl⟩)
  · exact .inr (.inr (.inl ⟨.zero, rfl⟩))
  · exact .inr (.inr (.inl ⟨.one, rfl⟩))
  · exact .inr (.inr (.inl ⟨.plus, rfl⟩))
  · exact .inr (.inr (.inl ⟨.minus, rfl⟩))
  · exact .inr (.inr (.inr rfl))

theorem perform_instr {c : Word} {i : Instr} (h : decode c = .instr i) (s : State) : perform c s = exec i s := by
  rw [perform, h]

theorem perform_malformed {c : Word} {op : Op} (h : decode c = .malformed op) (s : State) :
    perform c s = .next (malformedWord s) := by
  rw [perform, h]

/-- R80: what one command word that completes did. -/
theorem perform_spec {c : Word} {s t : State} (h : perform c s = .next t) :
    (∃ i, decode c = .instr i ∧ exec i s = .next t) ∨ ∃ op, decode c = .malformed op ∧ t = malformedWord s := by
  unfold perform at h
  split at h
  · exact .inl ⟨_, ‹_›, h⟩
  · exact .inr ⟨_, ‹_›, (Host.Outcome.next.inj h).symm⟩

theorem performAll_append (cs ds : List Word) (s : State) :
    performAll (cs ++ ds) s = andThen (performAll cs s) (performAll ds) := by
  induction cs generalizing s with
  | nil => rfl
  | cons c cs ih =>
    simp only [List.cons_append, performAll]
    cases perform c s with
    | next u => exact ih u
    | fault e => rfl
    | refused e => rfl

/-! One clock edge (R160, R168, R169) -/

/-- What a clock edge can do: a reset, a cycle in which nothing is accepted, or the step of the accepted word. -/
theorem step_spec {s t : State} (h : step s = .next t) :
    ((pins s).rst = true ∧ t = resetEdge s) ∨
      ((pins s).rst = false ∧ accepted s = none ∧ t = endCycle s) ∨
      ∃ c, (pins s).rst = false ∧ accepted s = some c ∧ perform c (endCycle s) = .next t := by
  unfold step at h
  split at h <;> rename_i hrst
  · exact .inl ⟨hrst, (Host.Outcome.next.inj h).symm⟩
  · have hr : (pins s).rst = false := Bool.eq_false_iff.mpr hrst
    split at h
    · exact .inr (.inr ⟨_, hr, ‹_›, h⟩)
    · exact .inr (.inl ⟨hr, ‹_›, (Host.Outcome.next.inj h).symm⟩)

/-- R168, R170: a word is accepted only in a cycle whose queue holds at most one beat, and then `Q` is empty as the
command is performed. -/
theorem accepted_spec {s : State} {c : Word} (h : accepted s = some c) :
    (pins s).rst = false ∧ (pins s).cmdValid = true ∧ s.q.length ≤ 1 ∧ (pins s).cmd = c ∧ (endCycle s).q = [] := by
  unfold accepted at h
  split at h
  · rename_i hc
    simp only [Bool.and_eq_true, Bool.not_eq_true', cmdReady, decide_eq_true_eq] at hc
    obtain ⟨⟨hr, hv⟩, hq⟩ := hc
    refine ⟨hr, hv, hq, by simpa using h, ?_⟩
    rw [endCycle_q]
    cases hs : s.q with
    | nil => rfl
    | cons b bs => rw [hs] at hq; simp at hq; simp [hq]
  · cases h

/-! Runs -/

/-- A run whose first step answers `u` goes on from `u`. -/
theorem run_next {n : Nat} {s u : State} (h : step s = .next u) :
    Host.Core.run Sys2Proof.core (n + 1) s = Host.Core.run Sys2Proof.core n u := by
  have hc : Sys2Proof.core.step s = .next u := h
  simp only [Host.Core.run, hc]

/-- A run that completes is a step that completes and the run from there. -/
theorem run_succ_next {n : Nat} {s t : State} (h : Host.Core.run Sys2Proof.core (n + 1) s = .next t) :
    ∃ u, step s = .next u ∧ Host.Core.run Sys2Proof.core n u = .next t := by
  simp only [Host.Core.run] at h
  split at h
  · rename_i u hs; exact ⟨u, hs, h⟩
  · cases h
  · cases h

/-- With no reset edge in the next cycles there is none in this one, nor in those after it. -/
theorem noReset_succ {n : Nat} {s : State} (h : noReset (n + 1) s) :
    (pins s).rst = false ∧ ∀ t : State, t.host = s.host.tail → noReset n t := by
  unfold pins
  cases hs : s.host with
  | nil => exact ⟨rfl, fun t ht p hp => by rw [ht] at hp; simp at hp⟩
  | cons q qs =>
    rw [noReset, hs] at h
    refine ⟨h q (by simp), fun t ht p hp => h p ?_⟩
    rw [ht] at hp
    exact List.mem_cons_of_mem _ hp

end Sys2Proof.Laws
end

