-- ==== Sys2Proof/Laws/Context.lean ====
section
/-! SUPPORT. No command reads the output queue or the host's side of the ports (spec/10_state.md R20, R34): putting other
beats before those in `Q`, another schedule and another record of presented beats changes nothing else. -/

namespace Sys2Proof.Laws

open Sys2Proof.Machine

/-- The state with beats put before those in `Q`, and another host. -/
def inContext (pre : List Beat) (h : List Pins) (p : List Beat) (s : State) : State :=
  { s with q := pre ++ s.q, host := h, presented := p }

/-- A function on the next state of a result. -/
def mapNext (f : State → State) : Result → Result
  | .next s => .next (f s)
  | .fault e => .fault e
  | .refused e => .refused e

theorem mapNext_eq_next {f : State → State} {r : Result} {t : State} (h : mapNext f r = .next t) :
    ∃ s, r = .next s ∧ t = f s := by
  cases r with
  | next s => exact ⟨s, rfl, (Host.Outcome.next.inj h).symm⟩
  | fault e => cases h
  | refused e => cases h

/-- Every state is its registers in its context. -/
theorem inContext_registers (s : State) : inContext s.q s.host s.presented (registers s) = s := by
  simp [inContext, registers]

theorem endCycle_eq (s : State) :
    endCycle s = inContext s.q.tail s.host.tail (s.presented ++ s.q.take 1) (registers s) := by
  simp [inContext, registers, endCycle]

variable (pre : List Beat) (h : List Pins) (p : List Beat)

theorem andThen_inContext (r : Result) {f : State → Result}
    (hf : ∀ s, f (inContext pre h p s) = mapNext (inContext pre h p) (f s)) :
    andThen (mapNext (inContext pre h p) r) f = mapNext (inContext pre h p) (andThen r f) := by
  cases r with
  | next s => exact hf s
  | fault e => rfl
  | refused e => rfl

theorem enc_inContext (d : Symbol) (s : State) :
    enc d (inContext pre h p s) = mapNext (inContext pre h p) (enc d s) := by
  obtain ⟨_, _, _, _, _, _, _, _, pos, _, _, _, _, _, _⟩ := s
  unfold enc inContext
  simp only
  split <;> cases d <;>
    simp [encNrzL, encNrzI, encManchester, encDiffManchester, encAmi, encoderAssertion, mapNext, emit]
  cases pos <;> simp

theorem flush_inContext (ds : List Symbol) (s : State) :
    flush ds (inContext pre h p s) = mapNext (inContext pre h p) (flush ds s) := by
  induction ds generalizing s with
  | nil => rfl
  | cons d ds ih => rw [flush, enc_inContext, andThen_inContext pre h p _ ih]; rfl

theorem scramblerUpdate_inContext (m : ScrMode) (d : Symbol) (s : State) :
    scramblerUpdate m d (inContext pre h p s) = inContext pre h p (scramblerUpdate m d s) := by
  have hz : (inContext pre h p s).zeroCnt = s.zeroCnt := rfl
  have hb : b8zsZero (inContext pre h p s) = inContext pre h p (b8zsZero s) := by
    rw [b8zsZero_cases, b8zsZero_cases, hz]; split <;> rfl
  have hh : hdb3Zero (inContext pre h p s) = inContext pre h p (hdb3Zero s) := by
    rw [hdb3Zero_cases, hdb3Zero_cases, hz]
    split
    · cases s with
      | mk _ _ _ _ _ onesPar => cases onesPar <;> rfl
    · rfl
  cases m <;> cases d <;> first | rfl | exact hb | exact hh

theorem throughLine_inContext (n : Nat) (m : ScrMode) (d : Symbol) (s : State) :
    throughLine n (scramblerUpdate m d) (inContext pre h p s) =
      mapNext (inContext pre h p) (throughLine n (scramblerUpdate m d) s) := by
  unfold throughLine
  rw [show afterPop n (inContext pre h p s) = inContext pre h p (afterPop n s) from rfl, scramblerUpdate_inContext,
    show (inContext pre h p s).dl = s.dl from rfl,
    show (inContext pre h p (afterPop n s)).dl = (afterPop n s).dl from rfl]
  split
  · cases popped n s.dl with
    | none => rfl
    | some d => exact enc_inContext pre h p d _
  · rfl

theorem acceptedSymbol_inContext (d : Symbol) (s : State) :
    acceptedSymbol d (inContext pre h p s) = mapNext (inContext pre h p) (acceptedSymbol d s) := by
  unfold acceptedSymbol
  rw [show (inContext pre h p s).scr = s.scr from rfl]
  split
  · exact enc_inContext pre h p d s
  · cases d
    · exact throughLine_inContext pre h p _ .b8zs .zero s
    · exact throughLine_inContext pre h p _ .b8zs .one s
    · rfl
    · rfl
  · cases d
    · exact throughLine_inContext pre h p _ .hdb3 .zero s
    · exact throughLine_inContext pre h p _ .hdb3 .one s
    · rfl
    · rfl
  · rfl

theorem symCommand_inContext (d : Symbol) (s : State) :
    symCommand d (inContext pre h p s) = mapNext (inContext pre h p) (symCommand d s) := by
  unfold symCommand
  rw [show (inContext pre h p s).fsm = s.fsm from rfl,
    show countSym (inContext pre h p s) = inContext pre h p (countSym s) from rfl]
  split
  · rfl
  · rfl
  · unfold symActive
    rw [show (inContext pre h p (countSym s)).scheme = (countSym s).scheme from rfl,
      show (inContext pre h p (countSym s)).scr = (countSym s).scr from rfl]
    split
    · exact acceptedSymbol_inContext pre h p d _
    · rfl

theorem execEnd_inContext (s : State) :
    execEnd (inContext pre h p s) = mapNext (inContext pre h p) (execEnd s) := by
  unfold execEnd
  rw [show (inContext pre h p s).fsm = s.fsm from rfl]
  split
  · rw [show (inContext pre h p s).dl = s.dl from rfl, flush_inContext]
    exact andThen_inContext pre h p _ fun t => by simp [mapNext, emit, inContext, closeFrame]
  · simp [mapNext, emit, inContext, errorExit]
  · simp [mapNext, emit, inContext, noteStrayEnd]

theorem exec_inContext (i : Instr) (s : State) :
    exec i (inContext pre h p s) = mapNext (inContext pre h p) (exec i s) := by
  rcases instr_cases i with rfl | ⟨m, k, rfl⟩ | ⟨d, rfl⟩ | rfl
  · rfl
  · simp only [exec, execStart]; split <;> rfl
  · rw [exec_symInstr, exec_symInstr, symCommand_inContext]
  · exact execEnd_inContext pre h p s

theorem perform_inContext (c : Word) (s : State) :
    perform c (inContext pre h p s) = mapNext (inContext pre h p) (perform c s) := by
  unfold perform
  split
  · exact exec_inContext pre h p _ s
  · unfold malformedWord
    rw [show (inContext pre h p s).fsm = s.fsm from rfl]
    split <;> rfl

theorem performAll_inContext (cs : List Word) (s : State) :
    performAll cs (inContext pre h p s) = mapNext (inContext pre h p) (performAll cs s) := by
  induction cs generalizing s with
  | nil => rfl
  | cons c cs ih => rw [performAll, perform_inContext, andThen_inContext pre h p _ ih]; rfl

end Sys2Proof.Laws
end

