-- ==== Sys2Proof/Laws/Line.lean ====
section
/-! SUPPORT. The delay line of an ACTIVE frame under the scrambler updates (spec/41_scrambler.md R102 to R109): its length,
the zero run at its end (R115) and its alphabet (R112). -/

namespace Sys2Proof.Laws

open Sys2Proof.Machine

/-- A delay line of depth `n` that ends in the run of `z` zeros counted so far, with no `1` in it. -/
structure Line (n z : Nat) (dl : List Symbol) : Prop where
  length_le : dl.length ≤ n
  run_le : z ≤ dl.length
  run : dl.drop (dl.length - z) = List.replicate z .zero
  run_lt : z < n
  no_one : Symbol.one ∉ dl

theorem line_nil {n : Nat} (hn : 0 < n) : Line n 0 [] :=
  ⟨Nat.zero_le n, Nat.le_refl 0, rfl, hn, by simp⟩

theorem polsym_ne_one (p : Bool) : polsym p ≠ Symbol.one := by cases p <;> decide

/-- R104, R107: a zero that does not complete the run. -/
theorem line_append_zero {n z : Nat} {dl : List Symbol} (h : Line n z dl) (hl : dl.length < n) (hz : z + 1 < n) :
    Line n (z + 1) (dl ++ [.zero]) where
  length_le := by simpa using hl
  run_le := by simpa using h.run_le
  run := by
    rw [List.length_append, List.length_singleton, Nat.add_sub_add_right,
      List.drop_append_of_le_length (Nat.sub_le _ _), h.run, List.replicate_succ']
  run_lt := hz
  no_one := by simpa using h.no_one

/-- R103, R106: a pulse. -/
theorem line_append_pulse {n z : Nat} {dl : List Symbol} {x : Symbol} (h : Line n z dl) (hl : dl.length < n)
    (hx : x ≠ .one) : Line n 0 (dl ++ [x]) where
  length_le := by simpa using hl
  run_le := Nat.zero_le _
  run := by simp
  run_lt := Nat.lt_of_le_of_lt (Nat.zero_le _) hl
  no_one := by simpa using ⟨h.no_one, Ne.symm hx⟩

/-- R102: the oldest symbol of a full line is no part of an unfinished run. -/
theorem line_pop {n z : Nat} {d : Symbol} {rest : List Symbol} (h : Line n z (d :: rest)) (hn : rest.length + 1 = n) :
    Line n z rest where
  length_le := by omega
  run_le := by have := h.run_lt; omega
  run := by
    have hz := h.run_lt
    have hr := h.run
    rw [List.length_cons, show rest.length + 1 - z = (rest.length - z) + 1 by omega, List.drop_succ_cons] at hr
    exact hr
  run_lt := h.run_lt
  no_one := fun hh => h.no_one (List.mem_cons_of_mem _ hh)

/-- R103 to R109: a scrambler update on a line with room keeps it so, and appends one symbol. -/
theorem line_update {m : ScrMode} {d : Symbol} {s : State} (hm : m ≠ .none) (hd : d = .zero ∨ d = .one)
    (h : Line (depth m) s.zeroCnt.toNat s.dl) (hl : s.dl.length < depth m) :
    Line (depth m) (scramblerUpdate m d s).zeroCnt.toNat (scramblerUpdate m d s).dl := by
  have up : ∀ (z : BitVec 4) (n : Nat), z.toNat < n → n ≤ 8 → z.toNat + 1 ≠ n →
      (z + 1).toNat = z.toNat + 1 ∧ z.toNat + 1 < n := by
    intro z n h1 h2 h3
    refine ⟨?_, by omega⟩
    rw [BitVec.toNat_add]
    exact Nat.mod_eq_of_lt (by simp; omega)
  have hz := h.run_lt
  cases m with
  | none => exact absurd rfl hm
  | b8zs =>
    rcases hd with rfl | rfl
    · simp only [scramblerUpdate, b8zsZero_cases]
      split
      · simp only [b8zsSubstitute_zeroCnt, b8zsSubstitute_dl]
        cases (pushZero s).lastPol <;> constructor <;> decide
      · rename_i hne
        obtain ⟨e, lt⟩ := up s.zeroCnt 8 hz (by decide) fun h => hne (BitVec.eq_of_toNat_eq (by simpa using h))
        simp only [pushZero_zeroCnt, pushZero_dl, e]
        exact line_append_zero h hl lt
    · exact line_append_pulse h hl (polsym_ne_one _)
  | hdb3 =>
    rcases hd with rfl | rfl
    · simp only [scramblerUpdate, hdb3Zero_cases]
      split
      · unfold hdb3Substitute
        split <;> simp only <;> cases (pushZero s).lastPol <;> constructor <;> decide
      · rename_i hne
        obtain ⟨e, lt⟩ := up s.zeroCnt 4 hz (by decide) fun h => hne (BitVec.eq_of_toNat_eq (by simpa using h))
        simp only [pushZero_zeroCnt, pushZero_dl, e]
        exact line_append_zero h hl lt
    · exact line_append_pulse h hl (polsym_ne_one _)

end Sys2Proof.Laws
end

