-- ==== Sys2Proof/Laws/PerInstr.lean ====
section
/-! SUPPORT. Statements made once for every command of the table (LAWS.json): the word of a command has no reserved bit
set (spec/30_encoding.md R61, R68). -/

namespace Sys2Proof.Laws.EncodedWordWellFormed

/-- The word of a command is well-formed, by the masks of spec/opcode_table.json. -/
def Statement (i : Instr) : Prop := wordWellFormed (encode i) = true

theorem nop : Statement .nop := by unfold Statement; decide

theorem start (m : BitVec 2) (k : BitVec 3) : Statement (.start m k) := by
  revert m k
  unfold Statement
  decide

theorem sym0 : Statement .sym0 := by unfold Statement; decide

theorem sym1 : Statement .sym1 := by unfold Statement; decide

theorem symPlus : Statement .symPlus := by unfold Statement; decide

theorem symMinus : Statement .symMinus := by unfold Statement; decide

theorem endFrame : Statement .endFrame := by unfold Statement; decide

end Sys2Proof.Laws.EncodedWordWellFormed
end

