-- ==== Sys2Proof/Machine/AsmText.lean ====
section
/-! DEFINITION. The assembler syntax as text (spec/30_encoding.md R74, R75): how a line is written, and how a line of text
is read. Nothing of the block depends on it; it is the notation of spec/95_test_vectors.md. -/

namespace Sys2Proof.Machine

/-- R74: how a scheme is written. -/
def schemeText : Scheme → String
  | .nrzL => "NRZ_L"
  | .nrzI => "NRZ_I"
  | .manchester => "MANCHESTER"
  | .diffManchester => "DIFF_MANCHESTER"
  | .ami => "AMI"

/-- R74: how a scramble mode is written. -/
def scrModeText : ScrMode → String
  | .none => "NONE"
  | .b8zs => "B8ZS"
  | .hdb3 => "HDB3"

/-- R74: how a symbol is written. -/
def symbolChar : Symbol → Char
  | .zero => '0'
  | .one => '1'
  | .plus => '+'
  | .minus => '-'

/-- R74: how a scheme operand is written. -/
def schemeArgText : SchemeArg → String
  | .name k => schemeText k
  | .code n => "#" ++ toString n

/-- R74: how a scramble-mode operand is written after its scheme. -/
def scrArgText : Option ScrArg → String
  | none => ""
  | some (.name m) => ", " ++ scrModeText m
  | some (.code n) => ", #" ++ toString n

/-- R74: one hexadecimal digit, in capitals. -/
def hexDigit (n : Nat) : String := String.ofList [(Nat.digitChar (n % 16)).toUpper]

/-- R75: a string of symbols in its quotes. -/
def quoted (str : List Symbol) : String := "\"" ++ String.ofList (str.map symbolChar) ++ "\""

/-- R74, R75: how a line is written. -/
def lineText : AsmLine → String
  | .nop => "NOP"
  | .start k m => "START " ++ schemeArgText k ++ scrArgText m
  | .sym d => "SYM " ++ String.ofList [symbolChar d]
  | .endFrame => "END"
  | .byte n => ".byte 0x" ++ hexDigit (n / 16) ++ hexDigit n
  | .bits str => "BITS " ++ quoted str
  | .frame k m str => "FRAME " ++ schemeArgText k ++ scrArgText m ++ ", " ++ quoted str

/-- A token of a line: a word, a comma, or a quoted string. -/
inductive Tok where
  | word (w : List Char)
  | comma
  | str (w : List Char)
deriving DecidableEq, Repr

/-- The word read so far, if any, in front of the tokens after it. -/
def pushWord (cur : List Char) (toks : List Tok) : List Tok := if cur = [] then toks else .word cur.reverse :: toks

/-- The tokens of a line (R74): a semicolon outside quotes starts a comment. The flag says that a quote is open; `cur` is
the word being read, last character first. None where a quote is never closed. -/
def tokenize : Bool → List Char → List Char → Option (List Tok)
  | true, _, [] => none
  | false, cur, [] => some (pushWord cur [])
  | true, cur, c :: cs =>
    if c = '"' then (tokenize false [] cs).map (Tok.str cur.reverse :: ·) else tokenize true (c :: cur) cs
  | false, cur, c :: cs =>
    if c = ';' then some (pushWord cur [])
    else if c = '"' then (tokenize true [] cs).map (pushWord cur)
    else if c = ',' then (tokenize false [] cs).map fun toks => pushWord cur (.comma :: toks)
    else if c = ' ' || c = '\t' then (tokenize false [] cs).map (pushWord cur)
    else tokenize false (c :: cur) cs

/-- The value of a digit in base `base`. -/
def digitOf (base : Nat) (c : Char) : Option Nat :=
  if '0' ≤ c && c ≤ '9' then some (c.toNat - '0'.toNat)
  else if base = 16 && 'A' ≤ c && c ≤ 'F' then some (c.toNat - 'A'.toNat + 10)
  else if base = 16 && 'a' ≤ c && c ≤ 'f' then some (c.toNat - 'a'.toNat + 10)
  else none

/-- The number a row of digits spells, after the digits already read. -/
def numberFrom (base : Nat) : Nat → List Char → Option Nat
  | n, [] => some n
  | n, c :: cs =>
    match digitOf base c with
    | some d => numberFrom base (base * n + d) cs
    | none => none

/-- R74: a raw code `#n`. -/
def rawCode : List Char → Option Nat
  | '#' :: c :: cs => numberFrom 10 0 (c :: cs)
  | _ => none

/-- R74: a scheme operand read from a word. -/
def readScheme (w : List Char) : Option SchemeArg :=
  if w = "NRZ_L".toList then some (.name .nrzL)
  else if w = "NRZ_I".toList then some (.name .nrzI)
  else if w = "MANCHESTER".toList then some (.name .manchester)
  else if w = "DIFF_MANCHESTER".toList then some (.name .diffManchester)
  else if w = "AMI".toList then some (.name .ami)
  else (rawCode w).map .code

/-- R74: a scramble-mode operand read from a word. -/
def readScr (w : List Char) : Option ScrArg :=
  if w = "NONE".toList then some (.name .none)
  else if w = "B8ZS".toList then some (.name .b8zs)
  else if w = "HDB3".toList then some (.name .hdb3)
  else (rawCode w).map .code

/-- R74: a symbol read from a character. -/
def readSymbol (c : Char) : Option Symbol :=
  if c = '0' then some .zero
  else if c = '1' then some .one
  else if c = '+' then some .plus
  else if c = '-' then some .minus
  else none

/-- R75: a string of symbols read from what stands between the quotes. -/
def readSymbols : List Char → Option (List Symbol)
  | [] => some []
  | c :: cs =>
    match readSymbol c, readSymbols cs with
    | some d, some ds => some (d :: ds)
    | _, _ => none

/-- R74, R75: the operands of a line after its first word. -/
def readOperands (w : List Char) : List Tok → Option AsmLine
  | [] =>
    if w = "NOP".toList then some .nop
    else if w = "END".toList then some .endFrame
    else none
  | [.word a] =>
    if w = "START".toList then (readScheme a).map fun k => .start k none
    else if w = "SYM".toList then
      match a with
      | [c] => (readSymbol c).map .sym
      | _ => none
    else if w = ".byte".toList then
      match a with
      | ['0', 'x', h, l] => (numberFrom 16 0 [h, l]).map .byte
      | _ => none
    else none
  | [.word a, .comma, .word b] =>
    match readScheme a, readScr b with
    | some k, some m => if w = "START".toList then some (.start k (some m)) else none
    | _, _ => none
  | [.str x] => if w = "BITS".toList then (readSymbols x).map .bits else none
  | [.word a, .comma, .str x] =>
    match readScheme a, readSymbols x with
    | some k, some str => if w = "FRAME".toList then some (.frame k none str) else none
    | _, _ => none
  | [.word a, .comma, .word b, .comma, .str x] =>
    match readScheme a, readScr b, readSymbols x with
    | some k, some m, some str => if w = "FRAME".toList then some (.frame k (some m) str) else none
    | _, _, _ => none
  | _ => none

/-- R74: the commands of one line of text; a blank line or a comment has none. The outer none is a line that the syntax
does not have. -/
def readLine (line : String) : Option (List AsmLine) :=
  match tokenize false [] line.toList with
  | some [] => some []
  | some (.word w :: toks) => (readOperands w toks).map fun l => [l]
  | _ => none

/-- The command words of a program given as lines of text; none where a line or an operand is not in the syntax. -/
def assembleText : List String → Option (List Word)
  | [] => some []
  | line :: lines =>
    match (readLine line).bind assemble, assembleText lines with
    | some ws, some rest => some (ws ++ rest)
    | _, _ => none

end Sys2Proof.Machine
end

