-- ==== Sys2Proof/Tests/Slice0.lean ====
section
/-! SUPPORT. Tests of the model. Every expected value is from spec/95_test_vectors.md or worked out by hand from the rule
named; no test pastes what the model answered. The theorems `test_witness_…` show, for each statement of
Certificates/Slice0/Obligations.lean that has hypotheses, a state and operands that meet them, at the edges of their
ranges. -/

namespace Sys2Proof.Tests

open Sys2Proof.Machine

/-! States the tests start from -/

/-- An ACTIVE frame with this configuration, right after START. -/
def openState (k : Scheme) (m : ScrMode) : State := openFrame m.code k.code State.reset

/-- An ACTIVE scrambled frame with this delay line and zero count. -/
def lineState (m : ScrMode) (dl : List Symbol) (z : BitVec 4) : State :=
  { openState .ami m with dl := dl, zeroCnt := z }

/-- A frame that failed with InvalidSymbol at index 1. -/
def failedState : State := errorEntry .invalidSymbol 1 (openState .nrzL .none)

/-- `n` zeros. -/
def zeros (n : Nat) : List Symbol := List.replicate n .zero

/-- The host presents this word in this cycle, with these beats in `Q`. -/
def presenting (c : Word) (q : List Beat) (s : State) : State :=
  { s with q := q, host := [{ rst := false, cmdValid := true, cmd := c }] }

/-- The `status` port after a result (95_test_vectors.md, column status). -/
def statusOf (r : Result) : Option (BitVec 32) := (nextOf r).map fun t => (ports t).status

/-- The packed beats of a result (95_test_vectors.md, column beats). -/
def beatsOf (r : Result) : Option (List (BitVec 10)) := (nextOf r).map fun t => t.q.map outw

/-! Well-formed words (R61, R68): each check refuses a word with a reserved bit set -/

theorem test_nopWord_refuses : nopWord 0x01#8 = false ∧ nopWord 0x20#8 = false := by decide

theorem test_startWord_refuses : startWord 0x4C#8 = false ∧ startWord 0x78#8 = false := by decide

theorem test_symWord_refuses : symWord 0x84#8 = false ∧ symWord 0xBF#8 = false := by decide

theorem test_endWord_refuses : endWord 0xC1#8 = false ∧ endWord 0xE0#8 = false := by decide

theorem test_wordWellFormed_refuses :
    wordWellFormed 0x3F#8 = false ∧ wordWellFormed 0x48#8 = false ∧ wordWellFormed 0x84#8 = false ∧
      wordWellFormed 0xFF#8 = false := by decide

/-- R68: 38 of the 256 words are well-formed. -/
theorem test_wellFormed_count : ((List.range 256).filter fun n => wordWellFormed (BitVec.ofNat 8 n)).length = 38 := by
  decide

/-! Decoding (95_test_vectors.md section 2), each word written bit by bit -/

theorem test_decode_nop : decode 0b00_000000#8 = .instr .nop := by decide

theorem test_decode_start_nrzL : decode 0b01_00_0_000#8 = .instr (.start 0b00#2 0b000#3) := by decide

theorem test_decode_start_ami_hdb3 : decode 0b01_10_0_100#8 = .instr (.start 0b10#2 0b100#3) := by decide

theorem test_decode_start_unrecognised : decode 0b01_11_0_111#8 = .instr (.start 0b11#2 0b111#3) := by decide

theorem test_decode_sym0 : decode 0b10_0000_00#8 = .instr .sym0 := by decide

theorem test_decode_sym1 : decode 0b10_0000_01#8 = .instr .sym1 := by decide

theorem test_decode_symPlus : decode 0b10_0000_10#8 = .instr .symPlus := by decide

theorem test_decode_symMinus : decode 0b10_0000_11#8 = .instr .symMinus := by decide

theorem test_decode_end : decode 0b11_000000#8 = .instr .endFrame := by decide

theorem test_decode_malformed :
    decode 0b00_000001#8 = .malformed .nop ∧ decode 0b01_00_1_000#8 = .malformed .start ∧
      decode 0b10_0001_00#8 = .malformed .sym ∧ decode 0b11_000001#8 = .malformed .endFrame := by decide

/-- The opcode table's numbering: bit 0 is the word's least significant bit, and bits above `nbits` are 0. -/
theorem test_decodeTableWord :
    decodeTableWord 8 0x64 = some (.start 0b10#2 0b100#3) ∧ decodeTableWord 8 0x84 = none ∧
      decodeTableWord 8 0x1C0 = some .endFrame := by decide

/-- 95_test_vectors.md section 2, the beat catalogue. -/
theorem test_outw :
    outw (.data .one (.two .neg .pos)) = 0x03D#10 ∧ outw (.data .minus (.one .neg)) = 0x06C#10 ∧
      outw (.data .zero (.two .pos .neg)) = 0x017#10 ∧ outw (.done .invalidSymbol) = 0x300#10 := by decide

/-! Instructions, one step each -/

/-- E12 step 2. -/
theorem test_nop : statusOf (exec .nop { openState .nrzI .none with encLvl := true }) = some 0x00080005#32 := by decide

/-- E11 step 3: START aborts an open frame. -/
theorem test_start_aborts : statusOf (exec (.start 0b00#2 0b001#3) (lineState .hdb3 [.plus, .zero] 1)) =
    some 0x00000005#32 := by decide

/-- E4 step 0. -/
theorem test_start_invalid : statusOf (exec (.start 0b01#2 0b000#3) State.reset) = some 0x000000A2#32 := by decide

/-- P2 step 9: the eighth zero at positive polarity, with the line full. -/
theorem test_sym0_b8zs :
    let r := exec .sym0 { lineState .b8zs (.plus :: zeros 7) 7 with lastPol := true }
    beatsOf r = some [0x044#10] ∧ statusOf r = some 0x00140231#32 ∧
      (nextOf r).map (fun t => (ports t).dline) = some 0xE2C0#16 := by decide

/-- W9: the fourth zero at even parity after two ones, `B00V` with the new polarity. -/
theorem test_sym0_hdb3 :
    (nextOf (exec .sym0 (lineState .hdb3 (.minus :: zeros 3) 3))).map (fun t => t.dl) =
      some [.plus, .zero, .zero, .plus] := by decide

/-- E9 step 3. -/
theorem test_sym1_ami : beatsOf (exec .sym1 { openState .ami .none with amiPos := true }) = some [0x02C#10] := by decide

/-- 95_test_vectors.md section 3, the second symbol of `FRAME DIFF_MANCHESTER, "1111"`. -/
theorem test_sym1_diffManchester :
    let r := exec .sym1 { openState .diffManchester .none with encLvl := true }
    beatsOf r = some [0x03D#10] ∧ (nextOf r).map (fun t => t.encLvl) = some false := by decide

/-- E13 step 1. -/
theorem test_symPlus_ami :
    let r := exec .symPlus (openState .ami .none)
    beatsOf r = some [0x044#10] ∧ statusOf r = some 0x00100011#32 := by decide

/-- E5 step 2: the status and the recorded index. -/
theorem test_symPlus_nrzL :
    let r := exec .symPlus { openState .nrzL .none with symCnt := 1 }
    statusOf r = some 0x00000102#32 ∧ (nextOf r).map (fun t => (t.errIdx, t.symCnt)) = some (1#16, 2#16) := by decide

/-- E13 step 3. -/
theorem test_symMinus_ami : beatsOf (exec .symMinus (openState .ami .none)) = some [0x06C#10] := by decide

/-- E6 step 2: the delay line is discarded. -/
theorem test_symMinus_b8zs :
    let r := exec .symMinus { lineState .b8zs [.plus] 0 with lastPol := true, symCnt := 1 }
    beatsOf r = some [] ∧ statusOf r = some 0x00000332#32 := by decide

/-- P2 step 11: END flushes eight symbols, and Done is the ninth beat. -/
theorem test_end_flush :
    beatsOf (exec .endFrame (lineState .b8zs [.zero, .zero, .minus, .plus, .zero, .plus, .minus, .minus] 0)) =
      some [0x000#10, 0x000#10, 0x06C#10, 0x044#10, 0x000#10, 0x044#10, 0x06C#10, 0x06C#10, 0x200#10] := by decide

/-- E8 step 0. -/
theorem test_end_idle :
    let r := exec .endFrame State.reset
    beatsOf r = some [0x380#10] ∧ statusOf r = some 0x00000180#32 := by decide

/-- E9 step 4: the word `0x84` in an ACTIVE frame with `sym_cnt` = 3. -/
theorem test_malformed :
    (nextOf (perform 0x84#8 { openState .ami .none with symCnt := 3 })).map
        (fun t => (t.fsm, t.errCode, t.errIdx, t.symCnt)) =
      some (.error, .invalidCommand, 3#16, 3#16) := by decide

/-! Frames, the clock, and the assembler -/

/-- W3, W8: the reference functions on the source's examples. -/
theorem test_reference :
    encodeRef .nrzI [.one, .one, .one, .one] = [.neg, .pos, .neg, .pos] ∧
      scrHdb3 [.one, .zero, .zero, .zero, .zero] = [.plus, .zero, .zero, .zero, .plus] ∧
      scrB8zs (zeros 8) = [.zero, .zero, .zero, .plus, .minus, .zero, .minus, .plus] := by decide

/-- R170, R168: with two beats in `Q` a presented command waits. -/
theorem test_step_not_ready :
    (nextOf (step (presenting 0xC0#8 [.done .none, .done .none] State.reset))).map (fun t => t.q) =
      some [.done .none] := by decide

/-- R169: the beat on the port leaves before the beats of the command enter. -/
theorem test_step_accepts :
    (nextOf (step (presenting 0xC0#8 [.done .none] State.reset))).map (fun t => (t.presented, t.q)) =
      some ([.done .none], [.done .invalidCommand]) := by decide

/-- R160: a reset edge discards the rest of the queue. -/
theorem test_step_reset :
    (nextOf (step { failedState with
      q := [.done .none, .done .none], host := [{ rst := true, cmdValid := true, cmd := 0x44#8 }] })).map
        (fun t => (t.fsm, t.q, t.presented)) =
      some (.idle, [], [.done .none]) := by decide

/-- A word placed after reset is the next step's command, with a full queue too. -/
theorem test_withFetchWord :
    (nextOf (step (State.reset.withFetchWord 8 0x64))).map (fun t => (t.fsm, t.scheme, t.scr)) =
        some (.active, 0b100#3, 0b10#2) ∧
      (nextOf (step ({ failedState with q := [.done .none, .done .none] }.withFetchWord 8 0x41))).map
        (fun t => (t.fsm, t.scheme)) = some (.active, 0b001#3) := by decide

/-- Program P1's source and its bytes. -/
theorem test_assemble :
    assembleText ["START AMI        ; 0x44", "BITS \"1011\"", "END"] =
      some [0x44#8, 0x81#8, 0x80#8, 0x81#8, 0x81#8, 0xC0#8] := by decide

/-- R74, R75: an operand out of range is no line, and the text of a line reads back as the line. -/
theorem test_assemble_refuses :
    assembleText ["START #8"] = none ∧ assembleText ["SYM 2"] = none ∧ assembleText [".byte 0x84"] = some [0x84#8] ∧
      readLine (lineText (.frame (.name .ami) (some (.code 3)) [.one, .plus])) =
        some [.frame (.name .ami) (some (.code 3)) [.one, .plus]] := by decide

/-- R115 read without its frame: after END the zero count of a short trailing run is kept over an empty delay line
(95_test_vectors.md section 3, `FRAME AMI, B8ZS, "0000000"`, status `0x00003830`). Log entry 4. -/
theorem test_zero_count_survives_end : statusOf (exec .endFrame (lineState .b8zs (zeros 7) 7)) = some 0x00003830#32 := by
  decide

/-! Witnesses: the encodings and the step -/

theorem test_witness_ResetEdgeClearsRegistersAndQueue :
    (pins { failedState with host := [{ rst := true, cmdValid := true, cmd := 0#8 }] }).rst = true := by decide

/-- `DecoderFollowsOpAndReservedBits`, its eight clauses. -/
theorem test_witness_DecoderFollowsOpAndReservedBits :
    ((0x00#8).extractLsb' 6 2 = 0b00#2 ∧ (0x00#8).extractLsb' 0 6 = 0) ∧
      ((0x77#8).extractLsb' 6 2 = 0b01#2 ∧ (0x77#8).extractLsb' 3 1 = 0) ∧
      ((0x83#8).extractLsb' 6 2 = 0b10#2 ∧ (0x83#8).extractLsb' 2 4 = 0) ∧
      ((0xC0#8).extractLsb' 6 2 = 0b11#2 ∧ (0xC0#8).extractLsb' 0 6 = 0) ∧
      ((0x01#8).extractLsb' 6 2 = 0b00#2 ∧ (0x01#8).extractLsb' 0 6 ≠ 0) ∧
      ((0x48#8).extractLsb' 6 2 = 0b01#2 ∧ (0x48#8).extractLsb' 3 1 ≠ 0) ∧
      ((0x84#8).extractLsb' 6 2 = 0b10#2 ∧ (0x84#8).extractLsb' 2 4 ≠ 0) ∧
      ((0xFF#8).extractLsb' 6 2 = 0b11#2 ∧ (0xFF#8).extractLsb' 0 6 ≠ 0) := by decide

theorem test_witness_DecodeEncodeAgree : decode 0x77#8 = .instr (.start 0b11#2 0b111#3) := by decide

/-- `StepRunsDecodedCommand`, with `Q` empty and with one beat. -/
theorem test_witness_StepRunsDecodedCommand :
    ∀ q ∈ [[], [Beat.done .none]],
      let s := presenting 0x64#8 q State.reset
      (pins s).rst = false ∧ (pins s).cmdValid = true ∧ s.q.length ≤ 1 ∧
        decode (pins s).cmd = .instr (.start 0b10#2 0b100#3) := by decide

theorem test_witness_StepRunsPlacedWord : decodeTableWord 8 0xC0 = some .endFrame := by decide

/-- `StepOnMalformedWord`, its two clauses. -/
theorem test_witness_StepOnMalformedWord :
    ∀ s ∈ [presenting 0x84#8 [Beat.done .none] failedState, presenting 0x84#8 [] State.reset],
      (pins s).rst = false ∧ (pins s).cmdValid = true ∧ s.q.length ≤ 1 ∧ decode (pins s).cmd = .malformed .sym := by
  decide

theorem test_witness_StepOnMalformedWord_states :
    (presenting 0x84#8 [Beat.done .none] failedState).fsm = .error ∧ (presenting 0x84#8 [] State.reset).fsm ≠ .error := by
  decide

/-- `CycleWithoutAcceptanceOnlyPresents`: nothing presented, and two beats in `Q`. -/
theorem test_witness_CycleWithoutAcceptanceOnlyPresents :
    ((pins State.reset).rst = false ∧ (pins State.reset).cmdValid = false) ∧
      (pins (presenting 0x00#8 [.done .none, .done .none] State.reset)).rst = false ∧
        2 ≤ (presenting 0x00#8 [.done .none, .done .none] State.reset).q.length := by decide

/-! Witnesses: START, malformed words, SYM outside an ACTIVE frame -/

/-- `StartOpensValidFrame`: plain NRZ-L, and AMI with HDB3. -/
theorem test_witness_StartOpensValidFrame :
    ((0b000#3).toNat ≤ 4 ∧ (0b00#2).toNat ≠ 3 ∧ ((0b00#2).toNat = 0 ∨ (0b000#3).toNat = 4)) ∧
      ((0b100#3).toNat ≤ 4 ∧ (0b10#2).toNat ≠ 3 ∧ ((0b10#2).toNat = 0 ∨ (0b100#3).toNat = 4)) := by decide

/-- `StartRejectsInvalidConfiguration` and `FrameWithInvalidConfigurationFails`: the three causes at their edges. -/
theorem test_witness_StartRejectsInvalidConfiguration :
    5 ≤ (0b101#3).toNat ∧ 5 ≤ (0b111#3).toNat ∧ (0b11#2).toNat = 3 ∧ ((0b01#2).toNat ≠ 0 ∧ (0b011#3).toNat ≠ 4) := by
  decide

theorem test_witness_SevenWordsOpenAFrame : State.reset.fsm = .idle := by decide

/-- `MalformedWordRaisesOrIsIgnored`, in its three frame states. -/
theorem test_witness_MalformedWordRaisesOrIsIgnored :
    wordWellFormed 0x01#8 = false ∧ wordWellFormed 0xFF#8 = false ∧ failedState.fsm = .error ∧
      State.reset.fsm ≠ .error ∧ (openState .ami .hdb3).fsm ≠ .error := by decide

theorem test_witness_SymWithNoFrameRaisesInvalidCommand : State.reset.fsm = .idle := by decide

theorem test_witness_SymInErrorOnlyCounts : failedState.fsm = .error := by decide

/-- `ForcedPulseOutsidePlainAmiRaisesInvalidSymbol`: another scheme, and AMI with a scrambler. -/
theorem test_witness_ForcedPulseOutsidePlainAmiRaisesInvalidSymbol :
    ∀ s ∈ [openState .diffManchester .none, lineState .b8zs (zeros 7) 7],
      s.fsm = .active ∧ ¬(s.scheme = 0b100#3 ∧ s.scr = 0b00#2) := by decide

/-! Witnesses: SYM in an ACTIVE frame -/

/-- `SymNrzL`, `SymNrzI`, `SymManchester`, `SymDiffManchester` and `SymPlainAmi`. -/
theorem test_witness_plain_schemes :
    ((openState .nrzL .none).fsm = .active ∧ (openState .nrzL .none).scheme = 0b000#3) ∧
      ((openState .nrzI .none).fsm = .active ∧ (openState .nrzI .none).scheme = 0b001#3) ∧
      ((openState .manchester .none).fsm = .active ∧ (openState .manchester .none).scheme = 0b010#3) ∧
      ((openState .diffManchester .none).fsm = .active ∧ (openState .diffManchester .none).scheme = 0b011#3) ∧
      ((openState .ami .none).fsm = .active ∧ (openState .ami .none).scheme = 0b100#3) ∧
      ∀ k ∈ [Scheme.nrzL, .nrzI, .manchester, .diffManchester, .ami], (openState k .none).scr = 0b00#2 := by decide

/-- `SymPlainAmi`, its two clauses on `ami_pos`. -/
theorem test_witness_SymPlainAmi :
    ({ openState .ami .none with amiPos := true } : State).amiPos = true ∧ (openState .ami .none).amiPos = false := by
  decide

/-- `SymB8zsOne`: the line filling at 7, and full. -/
theorem test_witness_SymB8zsOne :
    (∀ s ∈ [lineState .b8zs (zeros 7) 7, lineState .b8zs (.plus :: zeros 7) 7],
      s.fsm = .active ∧ s.scheme = 0b100#3 ∧ s.scr = 0b01#2) ∧
      (lineState .b8zs (zeros 7) 7).dl.length < 8 ∧
      ((lineState .b8zs (.plus :: zeros 7) 7).dl = .plus :: zeros 7 ∧ (zeros 7).length = 7) := by decide

/-- `SymB8zsZero`: a filling and a full line, each with the run below seven and at seven. -/
theorem test_witness_SymB8zsZero :
    (∀ s ∈ [lineState .b8zs (zeros 6) 6, lineState .b8zs (zeros 7) 7, lineState .b8zs (.plus :: .minus :: zeros 6) 6,
        lineState .b8zs (.plus :: zeros 7) 7], s.fsm = .active ∧ s.scheme = 0b100#3 ∧ s.scr = 0b01#2) ∧
      ((lineState .b8zs (zeros 6) 6).dl.length < 8 ∧ (lineState .b8zs (zeros 6) 6).zeroCnt ≠ 7) ∧
      ((lineState .b8zs (zeros 7) 7).dl.length < 8 ∧ (lineState .b8zs (zeros 7) 7).zeroCnt = 7) ∧
      ((lineState .b8zs (.plus :: .minus :: zeros 6) 6).dl = .plus :: (.minus :: zeros 6) ∧
        (Symbol.minus :: zeros 6).length = 7 ∧ (lineState .b8zs (.plus :: .minus :: zeros 6) 6).zeroCnt ≠ 7) ∧
      ((lineState .b8zs (.plus :: zeros 7) 7).dl = .plus :: zeros 7 ∧ (zeros 7).length = 7 ∧
        (lineState .b8zs (.plus :: zeros 7) 7).zeroCnt = 7) := by decide

/-- `SymHdb3One`: the line filling at 3, and full. -/
theorem test_witness_SymHdb3One :
    (∀ s ∈ [lineState .hdb3 (zeros 3) 3, lineState .hdb3 (.plus :: zeros 3) 3],
      s.fsm = .active ∧ s.scheme = 0b100#3 ∧ s.scr = 0b10#2) ∧
      (lineState .hdb3 (zeros 3) 3).dl.length < 4 ∧
      ((lineState .hdb3 (.plus :: zeros 3) 3).dl = .plus :: zeros 3 ∧ (zeros 3).length = 3) := by decide

/-- `SymHdb3ZeroInShortRun`: a filling and a full line with two zeros counted. -/
theorem test_witness_SymHdb3ZeroInShortRun :
    (∀ s ∈ [lineState .hdb3 (.plus :: zeros 2) 2, lineState .hdb3 (.plus :: .minus :: zeros 2) 2],
      s.fsm = .active ∧ s.scheme = 0b100#3 ∧ s.scr = 0b10#2 ∧ s.zeroCnt ≠ 3) ∧
      (lineState .hdb3 (.plus :: zeros 2) 2).dl.length < 4 ∧
      ((lineState .hdb3 (.plus :: .minus :: zeros 2) 2).dl = .plus :: (.minus :: zeros 2) ∧
        (Symbol.minus :: zeros 2).length = 3) := by decide

/-- `SymHdb3Substitutes`: a filling and a full line with three zeros counted, each at both parities. -/
theorem test_witness_SymHdb3Substitutes :
    (∀ p : Bool,
      ∀ s ∈ [{ lineState .hdb3 (zeros 3) 3 with onesPar := p }, { lineState .hdb3 (.minus :: zeros 3) 3 with onesPar := p }],
        s.fsm = .active ∧ s.scheme = 0b100#3 ∧ s.scr = 0b10#2 ∧ s.zeroCnt = 3 ∧ s.onesPar = p) ∧
      (lineState .hdb3 (zeros 3) 3).dl.length < 4 ∧
      ((lineState .hdb3 (.minus :: zeros 3) 3).dl = .minus :: zeros 3 ∧ (zeros 3).length = 3) := by decide

/-- `OneAfterB8zsPatternRepeatsItsLastPulse`, for any number of zeros: the line filling at 7, and full at 8. -/
theorem test_witness_OneAfterB8zsPatternRepeatsItsLastPulse :
    ∀ s ∈ [lineState .b8zs (zeros 7) 7, lineState .b8zs (.plus :: zeros 7) 7],
      s.fsm = .active ∧ s.scheme = 0b100#3 ∧ s.scr = 0b01#2 ∧ s.dl.length ≤ 8 ∧ s.zeroCnt = 7 := by decide

/-! Witnesses: END and what holds of every command -/

/-- `EndFlushesAndClosesFrame`: AMI with a full line, and NRZ-I, whose line is empty. -/
theorem test_witness_EndFlushesAndClosesFrame :
    ((lineState .b8zs (.plus :: zeros 7) 7).fsm = .active ∧
        (lineState .b8zs (.plus :: zeros 7) 7).scheme = Scheme.code .ami) ∧
      ((openState .nrzI .none).fsm = .active ∧ (openState .nrzI .none).scheme = Scheme.code .nrzI ∧
        Binary (openState .nrzI .none).dl) := by unfold Binary; decide

theorem test_witness_EndInErrorReportsTheError : failedState.fsm = .error := by decide

theorem test_witness_EndWithNoFrameReportsInvalidCommand : State.reset.fsm = .idle := by decide

theorem test_witness_FirstErrorWins : failedState.fsm = .error := by decide

/-- `ExactlyOneDoneBeatPerEnd`: an END, and a command that is none. -/
theorem test_witness_ExactlyOneDoneBeatPerEnd :
    ((∃ t, perform 0xC0#8 failedState = .next t) ∧ decode 0xC0#8 = .instr .endFrame) ∧
      (∃ t, perform 0x81#8 (openState .ami .none) = .next t) ∧ decode 0x81#8 ≠ .instr .endFrame :=
  ⟨⟨⟨_, rfl⟩, by decide⟩, ⟨_, rfl⟩, by decide⟩

/-- `RaisingCommandEmitsNothing`: a malformed word in an open frame. -/
theorem test_witness_RaisingCommandEmitsNothing :
    ∃ t, perform 0x84#8 (lineState .b8zs (zeros 7) 7) = .next t ∧ (lineState .b8zs (zeros 7) 7).fsm ≠ .error ∧
      t.fsm = .error :=
  ⟨_, rfl, by decide, by decide⟩

/-- `OnlyStartWritesSelectors` and `SymCountCountsSymCommands`. -/
theorem test_witness_OnlyStartWritesSelectors : ∃ t, perform 0x80#8 (lineState .hdb3 (zeros 3) 3) = .next t :=
  ⟨_, rfl⟩

/-- `PolarityIsWrittenOnlyByItsOwner`: a symbol that writes each of the three registers. -/
theorem test_witness_PolarityIsWrittenOnlyByItsOwner :
    (∃ t, exec .sym1 (openState .ami .hdb3) = .next t ∧ t.lastPol ≠ (openState .ami .hdb3).lastPol) ∧
      (∃ t, exec .sym1 (openState .ami .none) = .next t ∧ t.amiPos ≠ (openState .ami .none).amiPos) ∧
      (∃ t, exec .sym1 (openState .nrzI .none) = .next t ∧ t.encLvl ≠ (openState .nrzI .none).encLvl) ∧
      ∀ m k, Instr.sym1 ≠ .start m k :=
  ⟨⟨_, rfl, by decide⟩, ⟨_, rfl, by decide⟩, ⟨_, rfl, by decide⟩, fun _ _ h => Instr.noConfusion h⟩

/-! Witnesses: the invariant -/

/-- `BeatsPerCommand`, `StepNeverStops`, `EveryStepKeepsInv` and `SubstitutionReplacesExactlyTheRun`: a full B8ZS line. -/
theorem test_witness_inv_b8zs : Inv (lineState .b8zs (.plus :: zeros 7) 7) :=
  ⟨by decide, by decide, by decide, by decide, by decide, by decide, by decide, by decide, by decide, by decide⟩

/-- `SubstitutionReplacesExactlyTheRun`: an HDB3 line that is filling. -/
theorem test_witness_inv_hdb3 : Inv (lineState .hdb3 (zeros 3) 3) :=
  ⟨by decide, by decide, by decide, by decide, by decide, by decide, by decide, by decide, by decide, by decide⟩

/-- `BeatsPerCommand`: a symbol word, END, and a word that is neither. -/
theorem test_witness_BeatsPerCommand :
    decode 0x81#8 = .instr (symInstr .one) ∧ decode 0xC0#8 = .instr .endFrame ∧
      (∀ d ∈ [Symbol.zero, .one, .plus, .minus], decode 0x40#8 ≠ .instr (symInstr d)) ∧
      decode 0x40#8 ≠ .instr .endFrame := by decide

theorem test_witness_EveryStepKeepsInv : ∃ t, step (lineState .b8zs (.plus :: zeros 7) 7) = .next t := ⟨_, rfl⟩

/-- `SubstitutionReplacesExactlyTheRun`: the two modes with one zero missing. -/
theorem test_witness_SubstitutionReplacesExactlyTheRun :
    ((lineState .b8zs (.plus :: zeros 7) 7).fsm = .active ∧ (lineState .b8zs (.plus :: zeros 7) 7).scr = 0b01#2 ∧
        (lineState .b8zs (.plus :: zeros 7) 7).zeroCnt = 7) ∧
      (lineState .hdb3 (zeros 3) 3).fsm = .active ∧ (lineState .hdb3 (zeros 3) 3).scr = 0b10#2 ∧
        (lineState .hdb3 (zeros 3) 3).zeroCnt = 3 := by decide

/-- `QueueNeverExceedsNine`: nine beats in `Q`, and a full line whose END is accepted. -/
theorem test_witness_QueueNeverExceedsNine :
    ∀ s ∈ [{ State.reset with q := List.replicate 9 (.done .none) },
        presenting 0xC0#8 [Beat.done .none] (lineState .b8zs (.plus :: zeros 7) 7)],
      s.q.length ≤ 9 ∧ s.dl.length ≤ 8 ∧ (nextOf (step s)).isSome = true := by decide

/-! Witnesses: frames, time and ports -/

/-- `FrameComputesTheReference`: both alphabets. -/
theorem test_witness_FrameComputesTheReference :
    Binary [.zero, .one] ∧ (ScrMode.hdb3 = .none ∨ Scheme.ami = .ami) ∧ (ScrMode.none = .none ∨ Scheme.nrzI = .ami) ∧
      (Scheme.ami = .ami ∧ ScrMode.none = .none) := by unfold Binary; decide

/-- `FrameFailsAtFirstForcedPulse`: another scheme, and a scrambler. -/
theorem test_witness_FrameFailsAtFirstForcedPulse :
    ((ScrMode.none = .none ∨ Scheme.nrzL = .ami) ∧ ¬(Scheme.nrzL = .ami ∧ ScrMode.none = .none)) ∧
      ((ScrMode.b8zs = .none ∨ Scheme.ami = .ami) ∧ ¬(Scheme.ami = .ami ∧ ScrMode.b8zs = .none)) ∧
      Binary [.zero, .one] ∧ (Symbol.plus = .plus ∨ Symbol.plus = .minus) := by unfold Binary; decide

/-- `ScrambledFrameLagsByItsDepth` and `ScramblersKeepLengthAndLeaveNoOne`. -/
theorem test_witness_ScrambledFrameLagsByItsDepth : ScrMode.b8zs ≠ .none ∧ Binary (zeros 9) := by unfold Binary; decide

/-- `LevelsPerSymbol`, its clause on the level 0. -/
theorem test_witness_LevelsPerSymbol : Scheme.manchester ≠ .ami := by decide

/-- `DiffManchesterTransitions`, the first and the last symbol. -/
theorem test_witness_DiffManchesterTransitions :
    Binary [.one, .zero] ∧ [Symbol.one, .zero][0]? = some .one ∧ [Symbol.one, .zero][1]? = some .zero := by
  unfold Binary; decide

/-- `TimedRunsRefineCommandOrder`: three cycles, the first of which accepts a command. -/
theorem test_witness_TimedRunsRefineCommandOrder :
    noReset 3 (presenting 0x44#8 [] State.reset) ∧
      ∃ t : State, Host.Core.run Sys2Proof.core 3 (presenting 0x44#8 [] State.reset) = .next t :=
  ⟨by unfold noReset; decide, _, rfl⟩

/-- `EndStallsOneCyclePerFlushedSymbol`: eight symbols to flush, for the first cycle and the last. -/
theorem test_witness_EndStallsOneCyclePerFlushedSymbol :
    let s := presenting 0xC0#8 [] (lineState .b8zs (.plus :: zeros 7) 7)
    Inv s ∧ s.fsm = .active ∧ accepted s = some 0xC0#8 ∧ noReset 9 s ∧ 0 ≤ s.dl.length ∧ 8 ≤ s.dl.length :=
  ⟨⟨by decide, by decide, by decide, by decide, by decide, by decide, by decide, by decide, by decide, by decide⟩,
    by decide, by decide, by unfold noReset; decide, by decide, by decide⟩

/-- `StatusWordShowsTheRegisters` and `DlinePortShowsTheDelayLine`: a full line, and an empty one. -/
theorem test_witness_StatusWordShowsTheRegisters :
    (lineState .b8zs (.plus :: zeros 7) 7).dl.length ≤ 8 ∧
      (lineState .b8zs (.plus :: zeros 7) 7).dl[0]? = some .plus ∧
      (lineState .b8zs (.plus :: zeros 7) 7).dl[7]? = some .zero ∧ State.reset.dl.length ≤ 0 := by decide

/-- `OutputPortPresentsTheHeadBeat`: its four kinds of head. -/
theorem test_witness_OutputPortPresentsTheHeadBeat :
    State.reset.q = [] ∧
      (∀ b ∈ [Beat.data .plus (.one .pos), .data .one (.two .neg .pos), .done .invalidScheme],
        ({ State.reset with q := [b] } : State).q = b :: []) := by decide

end Sys2Proof.Tests
end

/-! PROOFS of the statements about the state (spec/10_state.md): the frame of every command, the invariant, runs from
reset, the refinement of command order by cycles, and the status ports. -/

/-! ## The invariant is kept by every operation

The output queue is bounded by a count of the beats of a command, on its own; the rest of the invariant does not read it.
So the invariant of the registers alone, `Inv (registers s)`, is what the commands are shown to keep. -/

namespace Sys2Proof.Proofs

open Sys2Proof.Machine Sys2Proof.Laws

@[simp] theorem registers_emit (b : Beat) (s : State) : registers (emit b s) = registers s := rfl

@[simp] theorem registers_endCycle (s : State) : registers (endCycle s) = registers s := rfl

/-- Only the bound on `Q` is about more than the registers. -/
theorem inv_iff_registers {s : State} : Inv s ↔ Inv (registers s) ∧ QueueInv s where
  mp h :=
    ⟨⟨h.config, h.closedLine, h.depth, h.zeroCount, h.zeroRun, h.alphabet, h.idleScrambler, h.idleEncoder, h.error,
      Nat.zero_le _⟩, h.queue⟩
  mpr := fun ⟨h, hq⟩ =>
    ⟨h.config, h.closedLine, h.depth, h.zeroCount, h.zeroRun, h.alphabet, h.idleScrambler, h.idleEncoder, h.error, hq⟩

theorem inv_reset : Inv State.reset :=
  ⟨by decide, by decide, by decide, by decide, by decide, by decide, by decide, by decide, by decide, by decide⟩

/-- The invariant does not read `sym_cnt`. -/
theorem inv_countSym {s : State} (h : Inv (registers s)) : Inv (registers (countSym s)) :=
  ⟨h.config, h.closedLine, h.depth, h.zeroCount, h.zeroRun, h.alphabet, h.idleScrambler, h.idleEncoder, h.error, h.queue⟩

theorem inv_emit {s : State} (h : Inv (registers s)) (b : Beat) : Inv (registers (emit b s)) := h

/-- Closing or failing a frame: the line is emptied, and ERROR has an error recorded. -/
theorem inv_leaveFrame {s : State} {f : Fsm} {e : ErrCode} (h : Inv (registers s)) (hf : f ≠ .active)
    (he : f = .error → e ≠ .none) (idx : BitVec 16) :
    Inv (registers { s with fsm := f, dl := [], errCode := e, errIdx := idx }) where
  config ha := absurd ha hf
  closedLine _ := rfl
  depth := Nat.zero_le _
  zeroCount := h.zeroCount
  zeroRun ha := absurd ha hf
  alphabet := List.not_mem_nil
  idleScrambler := h.idleScrambler
  idleEncoder := h.idleEncoder
  error := ⟨fun ha => absurd ha hf, he⟩
  queue := h.queue

theorem inv_errorEntry {s : State} {e : ErrCode} (h : Inv (registers s)) (he : e ≠ .none) (idx : BitVec 16) :
    Inv (registers (errorEntry e idx s)) :=
  inv_leaveFrame h (by decide) (fun _ => he) idx

theorem inv_closeFrame {s : State} (h : Inv (registers s)) : Inv (registers (closeFrame s)) :=
  inv_leaveFrame h (f := .idle) (e := s.errCode) (by decide) (fun hf => nomatch hf) s.errIdx

/-- R91: a failed frame has an empty line, so leaving it is closing it. -/
theorem inv_errorExit {s : State} (h : Inv (registers s)) (hs : s.fsm = .error) : Inv (registers (errorExit s)) := by
  have hdl : s.dl = [] := h.closedLine (by simp [hs])
  have hexit : errorExit s = closeFrame s := by rw [errorExit, closeFrame, ← hdl]
  exact hexit ▸ inv_closeFrame h

theorem inv_noteStrayEnd {s : State} (h : Inv (registers s)) (hs : s.fsm = .idle) :
    Inv (registers (noteStrayEnd s)) := by
  have hdl : s.dl = [] := h.closedLine (by simp [hs])
  have hnote : noteStrayEnd s =
      { s with fsm := .idle, dl := [], errCode := .invalidCommand, errIdx := s.symCnt } := by
    rw [noteStrayEnd, ← hdl, ← hs]
  exact hnote ▸ inv_leaveFrame h (by decide) (by decide) s.symCnt

theorem inv_malformedWord {s : State} (h : Inv (registers s)) : Inv (registers (malformedWord s)) := by
  unfold malformedWord
  split
  · exact h
  · exact inv_errorEntry h (by decide) _
  · exact inv_errorEntry h (by decide) _

/-- R82: whatever the state before it, a START leaves every register of the frame at its initial value. -/
theorem inv_startValues {m : BitVec 2} {k : BitVec 3} {f : Fsm} {e : ErrCode} (s : State)
    (hactive : f = .active → validConfig k m = true ∧ e = .none) (herror : f = .error → e ≠ .none) :
    Inv (registers { openFrame m k s with fsm := f, errCode := e }) where
  config ha := (hactive ha).1
  closedLine _ := rfl
  depth := Nat.zero_le _
  zeroCount := .inr rfl
  zeroRun _ := ⟨Nat.le_refl 0, rfl⟩
  alphabet := List.not_mem_nil
  idleScrambler := ⟨fun _ => rfl, fun _ _ => rfl⟩
  idleEncoder := ⟨fun _ _ => rfl, fun _ => rfl⟩
  error := ⟨fun ha => ⟨(hactive ha).2, rfl⟩, herror⟩
  queue := Nat.zero_le _

theorem execStart_next (m : BitVec 2) (k : BitVec 3) (s : State) :
    ∃ t, execStart m k s = .next t ∧ Inv (registers t) := by
  unfold execStart
  split <;> rename_i hvalid
  · exact ⟨_, rfl, inv_startValues s (fun _ => ⟨hvalid, rfl⟩) (by decide)⟩
  · exact ⟨_, rfl, inv_startValues s (fun ha => nomatch ha) (by decide)⟩

/-! ### The encoder -/

/-- R29: only NRZ-I and Differential Manchester write `enc_lvl`. -/
theorem levelAfter_unused {k : Scheme} (hn : k ≠ .nrzI) (hd : k ≠ .diffManchester) (lvl : Bool) (ds : List Symbol) :
    levelAfter k lvl ds = lvl := if_neg (not_or.mpr ⟨hn, hd⟩)

/-- R30: only AMI writes `ami_pos`. -/
theorem polarityAfter_unused {k : Scheme} (hk : k ≠ .ami) (pos : Bool) (ds : List Symbol) :
    polarityAfter k pos ds = pos := if_neg hk

theorem inv_flushed {k : Scheme} {s : State} (h : Inv (registers s)) (hk : s.scheme = k.code) (ds : List Symbol)
    (beats : List Beat) : Inv (registers (flushed k ds beats s)) where
  config := h.config
  closedLine := h.closedLine
  depth := h.depth
  zeroCount := h.zeroCount
  zeroRun := h.zeroRun
  alphabet := h.alphabet
  idleScrambler := h.idleScrambler
  idleEncoder := by
    refine ⟨fun hn hd => ?_, fun ha => ?_⟩
    · exact (levelAfter_unused (fun e => hn (e ▸ hk)) (fun e => hd (e ▸ hk)) _ _).trans (h.idleEncoder.1 hn hd)
    · exact (polarityAfter_unused (fun e => ha (e ▸ hk)) _ _).trans (h.idleEncoder.2 ha)
  error := h.error
  queue := h.queue

/-- R90, R112: in an ACTIVE frame every symbol in the delay line is one its scheme encodes. -/
theorem line_encodable {s : State} (h : Inv (registers s)) (ha : s.fsm = .active) :
    ∃ k, s.scheme = Scheme.code k ∧ ∀ d ∈ s.dl, Laws.Encodable k d := by
  obtain ⟨k, m, hk, hm, hkm⟩ := validConfig_cases (h.config ha)
  refine ⟨k, hk, fun d hd => ?_⟩
  rcases hkm with rfl | rfl
  · have hdepth : s.dl.length ≤ depthOf (ScrMode.code .none) := hm ▸ h.depth
    have hnil : s.dl = [] := List.eq_nil_of_length_eq_zero (Nat.le_zero.mp hdepth)
    simp [hnil] at hd
  · exact .inl rfl

theorem execEnd_next {s : State} (h : Inv (registers s)) : ∃ t, execEnd s = .next t ∧ Inv (registers t) := by
  unfold execEnd
  split
  next ha =>
    obtain ⟨k, hk, hd⟩ := line_encodable h ha
    obtain ⟨beats, hflush, -⟩ := flush_next hk hd
    rw [hflush]
    exact ⟨_, rfl, inv_emit (inv_closeFrame (inv_flushed h hk s.dl beats)) _⟩
  next he => exact ⟨_, rfl, inv_emit (inv_errorExit h he) _⟩
  next hi => exact ⟨_, rfl, inv_emit (inv_noteStrayEnd h hi) _⟩

/-! ### The scrambler -/

@[simp] theorem depthOf_code (m : ScrMode) : depthOf m.code = depth m := by cases m <;> rfl

theorem depth_pos {m : ScrMode} (hm : m ≠ .none) : 0 < depth m := by
  cases m with
  | none => exact absurd rfl hm
  | b8zs => decide
  | hdb3 => decide

theorem depth_le (m : ScrMode) : depth m ≤ Config.dlDepth := by cases m <;> decide

theorem line_of_inv {m : ScrMode} {s : State} (h : Inv (registers s)) (ha : s.fsm = .active) (hm : m ≠ .none)
    (hs : s.scr = m.code) : Line (depth m) s.zeroCnt.toNat s.dl := by
  obtain ⟨run_le, run⟩ := h.zeroRun ha
  have hdepth : depthOf s.scr = depth m := by rw [hs, depthOf_code]
  refine ⟨hdepth ▸ h.depth, run_le, run, ?_, h.alphabet⟩
  rcases h.zeroCount with hlt | hzero
  · exact hdepth ▸ hlt
  · have : s.zeroCnt = 0 := hzero
    simpa [this] using depth_pos hm

/-- R27: only the HDB3 updates write `ones_par`. -/
theorem scramblerUpdate_onesPar {m : ScrMode} (hm : m ≠ .hdb3) (d : Symbol) (s : State) :
    (scramblerUpdate m d s).onesPar = s.onesPar := by
  have hzero : (b8zsZero s).onesPar = s.onesPar := by rw [b8zsZero_cases]; split <;> rfl
  cases m with
  | none => cases d <;> rfl
  | b8zs =>
    cases d with
    | one => rfl
    | zero | plus | minus => exact hzero
  | hdb3 => exact absurd rfl hm

/-- A scrambler update keeps the invariant when the line it leaves is one of its mode. `l` is the line it starts from. -/
theorem inv_scramblerUpdate {m : ScrMode} {d : Symbol} {l : List Symbol} {s : State} (h : Inv (registers s))
    (ha : s.fsm = .active) (hm : m ≠ .none) (hs : s.scr = m.code)
    (hline : Line (depth m) (scramblerUpdate m d { s with dl := l }).zeroCnt.toNat
      (scramblerUpdate m d { s with dl := l }).dl) :
    Inv (registers (scramblerUpdate m d { s with dl := l })) := by
  have only := scramblerUpdate_only m d { s with dl := l }
  have hpar := fun hne => scramblerUpdate_onesPar (m := m) hne d { s with dl := l }
  generalize scramblerUpdate m d { s with dl := l } = t at *
  have hfsm : t.fsm = s.fsm := only.fsm
  have hscheme : t.scheme = s.scheme := only.scheme
  have hscr : t.scr = s.scr := only.scr
  have hdepth : depthOf t.scr = depth m := by rw [hscr, hs, depthOf_code]
  have hmode : t.scr ≠ ScrMode.code .b8zs → t.scr ≠ ScrMode.code .hdb3 → False := by
    rw [hscr, hs]; cases m <;> simp_all
  exact
    { config := fun _ => by simpa [hscheme, hscr] using h.config ha
      closedLine := fun hne => absurd (hfsm.trans ha) hne
      depth := hline.length_le.trans hdepth.ge
      zeroCount := .inl (hline.run_lt.trans_le hdepth.ge)
      zeroRun := fun _ => ⟨hline.run_le, hline.run⟩
      alphabet := hline.no_one
      idleScrambler := by
        refine ⟨fun hne => ?_, fun h1 h2 => (hmode h1 h2).elim⟩
        have hne' : s.scr ≠ ScrMode.code .hdb3 := hscr ▸ hne
        exact (hpar (fun e => hne' (e ▸ hs))).trans (h.idleScrambler.1 hne')
      idleEncoder := by
        have := h.idleEncoder
        simpa [IdleEncoderInv, hscheme, only.encLvl, only.amiPos] using this
      error := by
        have := h.error
        simpa [ErrorInv, hfsm, only.errCode, only.errIdx] using this
      queue := Nat.zero_le _ }

/-- R102: a scrambler step on a line of its mode completes: the update works on a line with room, and AMI encodes the
symbol that left, if one did. -/
theorem throughLine_next {m : ScrMode} {d : Symbol} {s : State} (hm : m ≠ .none) (hk : s.scheme = Scheme.code .ami)
    (hd : d = .zero ∨ d = .one) (hline : Line (depth m) s.zeroCnt.toNat s.dl) :
    ∃ l out beats,
      throughLine (depth m) (scramblerUpdate m d) s =
          .next (flushed .ami out beats (scramblerUpdate m d { s with dl := l })) ∧
        Line (depth m) (scramblerUpdate m d { s with dl := l }).zeroCnt.toNat
          (scramblerUpdate m d { s with dl := l }).dl := by
  rcases Nat.lt_or_eq_of_le hline.length_le with hlt | hfull
  · refine ⟨s.dl, [], [], ?_, line_update hm hd hline hlt⟩
    rw [throughLine_filling hlt (depth_le m)]
    simp [flushed, levelAfter, polarityAfter]
  · cases hs : s.dl with
    | nil => have := depth_pos hm; simp [hs] at hfull; omega
    | cons x rest =>
      have hrest : rest.length + 1 = depth m := by simpa [hs] using hfull
      have hpop : Line (depth m) s.zeroCnt.toNat rest := line_pop (hs ▸ hline) hrest
      have hscheme : (scramblerUpdate m d { s with dl := rest }).scheme = Scheme.code .ami :=
        (scramblerUpdate_only m d { s with dl := rest }).scheme.trans hk
      obtain ⟨ls, henc, -⟩ := enc_next (d := x) hscheme (.inl rfl)
      refine ⟨rest, [x], [.data x ls], ?_, line_update (s := { s with dl := rest }) hm hd hpop (by simp only; omega)⟩
      rw [throughLine_full hs hrest (depth_le m), henc]
      rfl

/-! ### SYM, and every command -/

/-- R88: only plain AMI accepts a forced pulse. -/
theorem forced_accepted {k : Scheme} {m : ScrMode} {d : Symbol} (h : accepts k.code m.code d = true)
    (hd : forced d = true) : k = .ami ∧ m = .none := by
  simp only [accepts, hd, Bool.not_true, Bool.false_or, Bool.and_eq_true, beq_iff_eq] at h
  have hk : Scheme.ofCode k.code = Scheme.ofCode (Scheme.code .ami) := congrArg _ h.1
  have hm : ScrMode.ofCode m.code = ScrMode.ofCode (ScrMode.code .none) := congrArg _ h.2
  simpa using And.intro hk hm

theorem not_forced {d : Symbol} (h : forced d = false) : d = .zero ∨ d = .one := by
  cases d with
  | zero => exact .inl rfl
  | one => exact .inr rfl
  | plus | minus => cases h

/-- R88, R89: a symbol that an ACTIVE frame accepts is encoded, or goes through the frame's scrambler. -/
theorem symCommand_accepted {d : Symbol} {s : State} (h : Inv (registers s)) (ha : s.fsm = .active)
    (hacc : accepts s.scheme s.scr d = true) : ∃ t, symCommand d s = .next t ∧ Inv (registers t) := by
  obtain ⟨k, m, hk, hm, hkm⟩ := validConfig_cases (h.config ha)
  change s.scheme = k.code at hk
  change s.scr = m.code at hm
  rw [hk, hm] at hacc
  have hforced : forced d = true → k = .ami ∧ m = .none := forced_accepted hacc
  by_cases hnone : m = .none
  · subst hnone
    have hd : Laws.Encodable k d := by
      cases hf : forced d with
      | true => exact .inl (hforced hf).1
      | false => exact .inr (not_forced hf)
    obtain ⟨ls, henc, -⟩ := enc_next (s := countSym s) hk hd
    refine ⟨encoded k d ls (countSym s), ?_, inv_flushed (inv_countSym h) hk [d] [.data d ls]⟩
    rw [symCommand, ha]
    simpa [symActive, hk, hm, hacc, acceptedSymbol] using henc
  · have hami : k = .ami := hkm.resolve_left hnone
    have hd : d = .zero ∨ d = .one := not_forced (Bool.eq_false_iff.mpr fun hf => hnone (hforced hf).2)
    have hline := line_of_inv (inv_countSym h) ha hnone hm
    obtain ⟨l, out, beats, hthrough, hline'⟩ := throughLine_next (s := countSym s) hnone (hami ▸ hk) hd hline
    have hinv := inv_scramblerUpdate (inv_countSym h) ha hnone hm hline'
    have only := scramblerUpdate_only m d { countSym s with dl := l }
    refine ⟨_, ?_, inv_flushed hinv (only.scheme.trans (hami ▸ hk)) out beats⟩
    rw [symCommand_scrambled ha hnone hm hd, hthrough]

theorem symCommand_next {d : Symbol} {s : State} (h : Inv (registers s)) :
    ∃ t, symCommand d s = .next t ∧ Inv (registers t) := by
  cases hs : s.fsm with
  | idle =>
    exact ⟨_, by rw [symCommand, hs], inv_errorEntry (inv_countSym h) (by decide) _⟩
  | error => exact ⟨_, by rw [symCommand, hs], inv_countSym h⟩
  | active =>
    cases hacc : accepts s.scheme s.scr d with
    | true => exact symCommand_accepted h hs hacc
    | false =>
      refine ⟨errorEntry .invalidSymbol s.symCnt (countSym s), ?_, inv_errorEntry (inv_countSym h) (by decide) _⟩
      rw [symCommand, hs]
      simp [symActive, hacc]

/-- R20: from registers that meet the invariant every command word completes, and keeps it. -/
theorem perform_next (c : Word) {s : State} (h : Inv (registers s)) :
    ∃ t, perform c s = .next t ∧ Inv (registers t) := by
  cases hc : decode c with
  | malformed op => exact ⟨_, perform_malformed hc s, inv_malformedWord h⟩
  | instr i =>
    rw [perform_instr hc]
    rcases instr_cases i with rfl | ⟨m, k, rfl⟩ | ⟨d, rfl⟩ | rfl
    · exact ⟨s, rfl, h⟩
    · exact execStart_next m k s
    · exact exec_symInstr d s ▸ symCommand_next h
    · exact execEnd_next h

/-- Every clock edge completes from a state with the invariant, and leaves registers with it. -/
theorem step_next {s : State} (h : Inv s) : ∃ t, step s = .next t ∧ Inv (registers t) := by
  have hregs : Inv (registers s) := (inv_iff_registers.mp h).1
  unfold step
  split
  · exact ⟨_, rfl, resetEdge_registers s ▸ inv_reset⟩
  · split
    · exact perform_next _ (registers_endCycle s ▸ hregs)
    · exact ⟨_, rfl, registers_endCycle s ▸ hregs⟩

end Sys2Proof.Proofs

/-! ## The frame of every command but START -/

namespace Sys2Proof.Proofs

open Sys2Proof.Machine Sys2Proof.Laws

/-- What encoding symbols leaves: the selectors and the count of symbols, the encoder registers of the other schemes, and
at most `n` beats more. -/
structure EncodingFrame (n : Nat) (s t : State) : Prop where
  scheme : t.scheme = s.scheme
  scr : t.scr = s.scr
  symCnt : t.symCnt = s.symCnt
  amiPos : t.amiPos ≠ s.amiPos → s.scheme = Scheme.code .ami
  encLvl : t.encLvl ≠ s.encLvl → s.scheme = Scheme.code .nrzI ∨ s.scheme = Scheme.code .diffManchester
  q_length : t.q.length ≤ s.q.length + n

theorem encodingFrame_flushed {k : Scheme} {s : State} (hk : s.scheme = k.code) (ds : List Symbol) (beats : List Beat) :
    EncodingFrame beats.length s (flushed k ds beats s) where
  scheme := rfl
  scr := rfl
  symCnt := rfl
  amiPos hne := by
    by_contra hami
    exact hne (polarityAfter_unused (fun e => hami (e ▸ hk)) _ _)
  encLvl hne := by
    by_contra hlvl
    obtain ⟨hn, hd⟩ := not_or.mp hlvl
    exact hne (levelAfter_unused (fun e => hn (e ▸ hk)) (fun e => hd (e ▸ hk)) _ _)
  q_length := (List.length_append).le

/-- A scrambler update writes nothing that the frame of an encoding names. -/
theorem encodingFrame_of_scrambler {n : Nat} {s u t : State} (only : ScramblerOnly s u) (h : EncodingFrame n u t) :
    EncodingFrame n s t where
  scheme := h.scheme.trans only.scheme
  scr := h.scr.trans only.scr
  symCnt := h.symCnt.trans only.symCnt
  amiPos hne := only.scheme ▸ h.amiPos (only.amiPos ▸ hne)
  encLvl hne := only.scheme ▸ h.encLvl (only.encLvl ▸ hne)
  q_length := only.q ▸ h.q_length

theorem encodingFrame_refl (n : Nat) (s : State) : EncodingFrame n s s :=
  ⟨rfl, rfl, rfl, fun hne => absurd rfl hne, fun hne => absurd rfl hne, Nat.le_add_right _ _⟩

theorem enc_frame {d : Symbol} {s t : State} (h : enc d s = .next t) :
    EncodingFrame 1 s t ∧ t.lastPol = s.lastPol := by
  obtain ⟨k, ls, hk, -, rfl, -⟩ := enc_spec h
  exact ⟨encodingFrame_flushed hk [d] [.data d ls], rfl⟩

theorem flush_frame {ds : List Symbol} {s t : State} (h : flush ds s = .next t) :
    EncodingFrame ds.length s t ∧ t.lastPol = s.lastPol := by
  rcases flush_spec h with ⟨-, rfl⟩ | ⟨k, beats, hk, -, rfl, hbeats⟩
  · exact ⟨encodingFrame_refl _ _, rfl⟩
  · exact ⟨hbeats.length ▸ encodingFrame_flushed hk ds beats, rfl⟩

theorem throughLine_frame {n : Nat} {m : ScrMode} {d : Symbol} {s t : State}
    (h : throughLine n (scramblerUpdate m d) s = .next t) : EncodingFrame 1 s t := by
  have only : ∀ l, ScramblerOnly { s with dl := l } (scramblerUpdate m d { s with dl := l }) :=
    fun l => scramblerUpdate_only m d _
  rcases throughLine_spec h with ⟨-, -, rfl⟩ | ⟨-, -, rfl⟩ | ⟨x, rest, -, -, -, henc⟩
  · exact encodingFrame_of_scrambler (only s.dl) (encodingFrame_refl 1 _)
  · exact encodingFrame_of_scrambler (only s.dl) (encodingFrame_refl 1 _)
  · have hframe := encodingFrame_of_scrambler (only rest) (enc_frame henc).1
    exact ⟨hframe.scheme, hframe.scr, hframe.symCnt, hframe.amiPos, hframe.encLvl, hframe.q_length⟩

/-- R25, R89: an accepted symbol writes `last_pol` only through a scrambler. -/
theorem acceptedSymbol_frame {d : Symbol} {s t : State} (h : acceptedSymbol d s = .next t) :
    EncodingFrame 1 s t ∧
      (t.lastPol ≠ s.lastPol →
        (s.scr = ScrMode.code .b8zs ∨ s.scr = ScrMode.code .hdb3) ∧ (d = .zero ∨ d = .one)) := by
  rcases acceptedSymbol_spec h with ⟨-, henc⟩ | ⟨m, hm, hscr, hd, hthrough⟩
  · obtain ⟨hframe, hpol⟩ := enc_frame henc
    exact ⟨hframe, fun hne => absurd hpol hne⟩
  · refine ⟨throughLine_frame hthrough, fun _ => ⟨?_, hd⟩⟩
    cases m with
    | none => exact absurd rfl hm
    | b8zs => exact .inl hscr
    | hdb3 => exact .inr hscr

/-- What a command but START leaves: the selectors, each polarity register under a scheme that does not own it, and the
beats in `Q`, to which it adds no more than the line holds and one. -/
structure CommandFrame (s t : State) : Prop where
  scheme : t.scheme = s.scheme
  scr : t.scr = s.scr
  amiPos : t.amiPos ≠ s.amiPos → s.fsm = .active ∧ s.scheme = Scheme.code .ami
  encLvl : t.encLvl ≠ s.encLvl →
    s.fsm = .active ∧ (s.scheme = Scheme.code .nrzI ∨ s.scheme = Scheme.code .diffManchester)
  q_length : t.q.length ≤ s.q.length + (s.dl.length + 1)

/-- A command that encodes nothing. -/
theorem commandFrame_of_eq {s t : State} (hscheme : t.scheme = s.scheme) (hscr : t.scr = s.scr)
    (hami : t.amiPos = s.amiPos) (hlvl : t.encLvl = s.encLvl) (hq : t.q.length ≤ s.q.length + 1) : CommandFrame s t :=
  ⟨hscheme, hscr, fun hne => absurd hami hne, fun hne => absurd hlvl hne, by omega⟩

theorem symCommand_frame {d : Symbol} {s t : State} (h : symCommand d s = .next t) : CommandFrame s t := by
  rcases symCommand_spec h with ⟨-, rfl⟩ | ⟨-, rfl⟩ | ⟨-, -, rfl⟩ | ⟨ha, -, hacc⟩
  · exact commandFrame_of_eq rfl rfl rfl rfl (Nat.le_add_right _ _)
  · exact commandFrame_of_eq rfl rfl rfl rfl (Nat.le_add_right _ _)
  · exact commandFrame_of_eq rfl rfl rfl rfl (Nat.le_add_right _ _)
  · have hframe := (acceptedSymbol_frame hacc).1
    have hq : t.q.length ≤ s.q.length + 1 := hframe.q_length
    exact ⟨hframe.scheme, hframe.scr, fun hne => ⟨ha, hframe.amiPos hne⟩, fun hne => ⟨ha, hframe.encLvl hne⟩, by omega⟩

theorem execEnd_frame {s t : State} (h : execEnd s = .next t) : CommandFrame s t := by
  rcases execEnd_spec h with ⟨-, rfl⟩ | ⟨-, rfl⟩ | ⟨ha, u, hflush, rfl⟩
  · exact commandFrame_of_eq rfl rfl rfl rfl (by simp)
  · exact commandFrame_of_eq rfl rfl rfl rfl (by simp)
  · have hframe := (flush_frame hflush).1
    have hq := hframe.q_length
    exact ⟨hframe.scheme, hframe.scr, fun hne => ⟨ha, hframe.amiPos hne⟩, fun hne => ⟨ha, hframe.encLvl hne⟩,
      by simp; omega⟩

theorem exec_frame {i : Instr} {s t : State} (h : exec i s = .next t) (hi : ∀ m k, i ≠ .start m k) :
    CommandFrame s t := by
  rcases instr_cases i with rfl | ⟨m, k, rfl⟩ | ⟨d, rfl⟩ | rfl
  · cases h; exact commandFrame_of_eq rfl rfl rfl rfl (Nat.le_add_right _ _)
  · exact absurd rfl (hi m k)
  · exact symCommand_frame (exec_symInstr d s ▸ h)
  · exact execEnd_frame h

theorem malformedWord_frame (s : State) : CommandFrame s (malformedWord s) := by
  unfold malformedWord
  split <;> exact commandFrame_of_eq rfl rfl rfl rfl (Nat.le_add_right _ _)

/-- R82, R84: what a START leaves, valid or not, of what a frame counts and holds. -/
theorem execStart_spec {m : BitVec 2} {k : BitVec 3} {s t : State} (h : execStart m k s = .next t) :
    t.symCnt = 0 ∧ t.q = s.q := by
  unfold execStart at h
  split at h <;> cases h <;> exact ⟨rfl, rfl⟩

/-- R24, R36: a command word that is no START has the frame of a command. -/
theorem perform_frame {c : Word} {s t : State} (h : perform c s = .next t) :
    (∃ m k, decode c = .instr (.start m k) ∧ execStart m k s = .next t) ∨ CommandFrame s t := by
  rcases perform_spec h with ⟨i, hc, hexec⟩ | ⟨op, -, rfl⟩
  · by_cases hi : ∃ m k, i = .start m k
    · obtain ⟨m, k, rfl⟩ := hi
      exact .inl ⟨m, k, hc, hexec⟩
    · exact .inr (exec_frame hexec fun m k e => hi ⟨m, k, e⟩)
  · exact .inr (malformedWord_frame s)

/-- R171: a command adds no more beats than the line holds and one. -/
theorem perform_q_length {c : Word} {s t : State} (h : perform c s = .next t) :
    t.q.length ≤ s.q.length + (s.dl.length + 1) := by
  rcases perform_frame h with ⟨m, k, -, hstart⟩ | hframe
  · rw [(execStart_spec hstart).2]; omega
  · exact hframe.q_length

/-- R33, R85: every SYM counts. -/
theorem symCommand_symCnt {d : Symbol} {s t : State} (h : symCommand d s = .next t) : t.symCnt = s.symCnt + 1 := by
  rcases symCommand_spec h with ⟨-, rfl⟩ | ⟨-, rfl⟩ | ⟨-, -, rfl⟩ | ⟨-, -, hacc⟩
  · rfl
  · rfl
  · rfl
  · exact (acceptedSymbol_frame hacc).1.symCnt

theorem execEnd_symCnt {s t : State} (h : execEnd s = .next t) : t.symCnt = s.symCnt := by
  rcases execEnd_spec h with ⟨-, rfl⟩ | ⟨-, rfl⟩ | ⟨-, u, hflush, rfl⟩
  · rfl
  · rfl
  · exact (flush_frame hflush).1.symCnt

theorem malformedWord_symCnt (s : State) : (malformedWord s).symCnt = s.symCnt := by
  unfold malformedWord; split <;> rfl

/-- R25: of the symbols, only a `0` or `1` that a scrambler takes writes `last_pol`. -/
theorem symCommand_lastPol {d : Symbol} {s t : State} (h : symCommand d s = .next t) (hne : t.lastPol ≠ s.lastPol) :
    s.fsm = .active ∧ (s.scr = ScrMode.code .b8zs ∨ s.scr = ScrMode.code .hdb3) ∧ (d = .zero ∨ d = .one) := by
  rcases symCommand_spec h with ⟨-, rfl⟩ | ⟨-, rfl⟩ | ⟨-, -, rfl⟩ | ⟨ha, -, hacc⟩
  · exact absurd rfl hne
  · exact absurd rfl hne
  · exact absurd rfl hne
  · exact ⟨ha, (acceptedSymbol_frame hacc).2 hne⟩

theorem execEnd_lastPol {s t : State} (h : execEnd s = .next t) : t.lastPol = s.lastPol := by
  rcases execEnd_spec h with ⟨-, rfl⟩ | ⟨-, rfl⟩ | ⟨-, u, hflush, rfl⟩
  · rfl
  · rfl
  · exact (flush_frame hflush).2

/-! ### No command writes the host's side of the ports -/

/-- A command on a state is the command on its registers, put back in their context. -/
theorem perform_registers {c : Word} {s t : State} (h : perform c s = .next t) :
    ∃ w, perform c (registers s) = .next w ∧ t = inContext s.q s.host s.presented w := by
  rw [← inContext_registers s, perform_inContext] at h
  exact mapNext_eq_next h

theorem perform_host {c : Word} {s t : State} (h : perform c s = .next t) :
    t.host = s.host ∧ t.presented = s.presented := by
  obtain ⟨w, -, rfl⟩ := perform_registers h
  exact ⟨rfl, rfl⟩

/-- Settles O37: the registers of the host's side are context, and the frame of a command keeps the selectors. -/
theorem onlyStartWritesSelectors : Obligations.OnlyStartWritesSelectors := by
  intro s t c h
  obtain ⟨hhost, hpresented⟩ := perform_host h
  refine ⟨hhost, hpresented, ?_⟩
  rcases perform_frame h with ⟨m, k, hc, -⟩ | hframe
  · exact .inl ⟨m, k, hc⟩
  · exact .inr ⟨hframe.scheme, hframe.scr⟩

/-- Settles O38, by the kinds of command words. -/
theorem symCountCountsSymCommands : Obligations.SymCountCountsSymCommands := by
  intro s t c h
  rcases perform_spec h with ⟨i, hc, hexec⟩ | ⟨op, hc, rfl⟩
  · rw [hc]
    cases i with
    | nop => cases hexec; rfl
    | start m k => exact (execStart_spec hexec).1
    | sym0 => exact symCommand_symCnt (d := .zero) hexec
    | sym1 => exact symCommand_symCnt (d := .one) hexec
    | symPlus => exact symCommand_symCnt (d := .plus) hexec
    | symMinus => exact symCommand_symCnt (d := .minus) hexec
    | endFrame => exact execEnd_symCnt hexec
  · rw [hc]
    exact malformedWord_symCnt s

/-- R25: of all commands but START, only SYM 0 and SYM 1 write `last_pol`. -/
theorem exec_lastPol {i : Instr} {s t : State} (h : exec i s = .next t) (hi : ∀ m k, i ≠ .start m k)
    (hne : t.lastPol ≠ s.lastPol) :
    s.fsm = .active ∧ (s.scr = ScrMode.code .b8zs ∨ s.scr = ScrMode.code .hdb3) ∧ (i = .sym0 ∨ i = .sym1) := by
  rcases instr_cases i with rfl | ⟨m, k, rfl⟩ | ⟨d, rfl⟩ | rfl
  · cases h; exact absurd rfl hne
  · exact absurd rfl (hi m k)
  · obtain ⟨ha, hscr, hd⟩ := symCommand_lastPol (exec_symInstr d s ▸ h) hne
    exact ⟨ha, hscr, hd.imp (congrArg symInstr) (congrArg symInstr)⟩
  · exact absurd (execEnd_lastPol h) hne

/-- Settles O39, from the frame of a command. -/
theorem polarityIsWrittenOnlyByItsOwner : Obligations.PolarityIsWrittenOnlyByItsOwner := by
  intro s t i h hi
  have hframe := exec_frame h hi
  have hnop : i = .nop → t = s := by rintro rfl; cases h; rfl
  refine ⟨exec_lastPol h hi, fun hne => ?_, fun hne => ?_⟩
  · obtain ⟨ha, hscheme⟩ := hframe.amiPos hne
    exact ⟨ha, hscheme, fun e => hne (congrArg State.amiPos (hnop e))⟩
  · obtain ⟨ha, hscheme⟩ := hframe.encLvl hne
    exact ⟨ha, hscheme, fun e => hne (congrArg State.encLvl (hnop e))⟩

end Sys2Proof.Proofs

/-! ## The queue bound, the invariant, and runs -/

namespace Sys2Proof.Proofs

open Sys2Proof.Machine Sys2Proof.Laws

/-- R170, R171: a command is performed on an empty queue, and adds at most the eight symbols of a full line and one. -/
theorem step_q_length {s t : State} (hq : s.q.length ≤ Config.outqCap) (hdl : s.dl.length ≤ Config.dlDepth)
    (h : step s = .next t) : t.q.length ≤ Config.outqCap := by
  rcases step_spec h with ⟨-, rfl⟩ | ⟨-, -, rfl⟩ | ⟨c, -, hacc, hperform⟩
  · exact Nat.zero_le _
  · rw [endCycle_q, List.length_tail]; omega
  · obtain ⟨-, -, -, -, hempty⟩ := accepted_spec hacc
    have hle := perform_q_length hperform
    rw [hempty, endCycle_dl, List.length_nil] at hle
    have hcap : Config.outqCap = Config.dlDepth + 1 := rfl
    omega

/-- Settles O45. -/
theorem queueNeverExceedsNine : Obligations.QueueNeverExceedsNine :=
  fun _ _ hq hdl h => ⟨step_q_length hq hdl h, decide_eq_true_iff⟩

theorem depthOf_le (m : BitVec 2) : depthOf m ≤ Config.dlDepth := by revert m; decide

/-- A step from a state with the invariant completes and keeps it. -/
theorem step_next_inv {s : State} (h : Inv s) : ∃ t, step s = .next t ∧ Inv t := by
  obtain ⟨t, hstep, hregs⟩ := step_next h
  exact ⟨t, hstep, inv_iff_registers.mpr ⟨hregs, step_q_length h.queue (h.depth.trans (depthOf_le _)) hstep⟩⟩

/-- Settles O42: the step that a state with the invariant takes is the one it answers. -/
theorem everyStepKeepsInv : Obligations.EveryStepKeepsInv := by
  intro s t h hstep
  obtain ⟨u, hu, hinv⟩ := step_next_inv h
  cases hu.symm.trans hstep
  exact hinv

/-- Settles O43. -/
theorem stepNeverStops : Obligations.StepNeverStops := by
  intro s h
  obtain ⟨t, hstep, -⟩ := step_next_inv h
  exact ⟨t, hstep⟩

theorem run_next_inv (n : Nat) {s : State} (h : Inv s) :
    ∃ t : State, Host.Core.run Sys2Proof.core n s = .next t ∧ Inv t := by
  induction n generalizing s with
  | zero => exact ⟨s, rfl, h⟩
  | succ n ih =>
    obtain ⟨u, hstep, hinv⟩ := step_next_inv h
    rw [run_next hstep]
    exact ih hinv

/-- Settles O44: the reset state has the invariant whatever the host's schedule, which the registers leave out. -/
theorem runsFromResetNeverStop : Obligations.RunsFromResetNeverStop :=
  fun _ n => run_next_inv n (inv_iff_registers.mpr ⟨inv_reset, Nat.zero_le _⟩)

end Sys2Proof.Proofs

/-! ## Cycles refine the command order -/

namespace Sys2Proof.Proofs

open Sys2Proof.Machine Sys2Proof.Laws

/-- The same registers and the same beats, presented or still queued: what command order determines (R55, R172). -/
structure SameOutcome (s t : State) : Prop where
  registers : registers s = registers t
  observed : observed s = observed t

theorem SameOutcome.trans {s t u : State} (hst : SameOutcome s t) (htu : SameOutcome t u) : SameOutcome s u :=
  ⟨hst.registers.trans htu.registers, hst.observed.trans htu.observed⟩

/-- R169: the beat that leaves `Q` at the end of a cycle is recorded as presented. -/
theorem sameOutcome_endCycle (s : State) : SameOutcome (endCycle s) s := by
  refine ⟨rfl, ?_⟩
  cases hq : s.q <;> simp [observed, hq]

theorem observed_inContext (pre : List Beat) (h : List Pins) (p : List Beat) (s : State) :
    observed (inContext pre h p s) = p ++ pre ++ s.q := (List.append_assoc _ _ _).symm

/-- R20: a command has the same outcome wherever its beats stand. -/
theorem perform_sameOutcome {c : Word} {s t s' : State} (hst : SameOutcome s t) (h : perform c s = .next s') :
    ∃ t', perform c t = .next t' ∧ SameOutcome s' t' := by
  obtain ⟨w, hw, rfl⟩ := perform_registers h
  refine ⟨inContext t.q t.host t.presented w, ?_, rfl, ?_⟩
  · rw [hst.registers] at hw
    have hctx := perform_inContext t.q t.host t.presented c (registers t)
    rwa [inContext_registers, hw] at hctx
  · rw [observed_inContext, observed_inContext]
    exact congrArg (· ++ w.q) hst.observed

/-- R172: the cycles from `s`, and the words they accept performed from a state with the same outcome, end in the same
outcome. -/
theorem run_sameOutcome {n : Nat} :
    ∀ {s t v : State}, noReset n s → Host.Core.run Sys2Proof.core n s = .next t → SameOutcome s v →
      ∃ u, performAll (acceptedWords n s) v = .next u ∧ SameOutcome t u := by
  induction n with
  | zero =>
    intro s t v _ hrun hsv
    cases hrun
    exact ⟨v, rfl, hsv⟩
  | succ n ih =>
    intro s t v hreset hrun hsv
    obtain ⟨u, hstep, hrun'⟩ := run_succ_next hrun
    obtain ⟨hrst, hlater⟩ := noReset_succ hreset
    have hend : SameOutcome (endCycle s) v := (sameOutcome_endCycle s).trans hsv
    simp only [acceptedWords, hstep]
    rcases step_spec hstep with ⟨hrst', -⟩ | ⟨-, hnone, rfl⟩ | ⟨c, -, hacc, hperform⟩
    · simp [hrst] at hrst'
    · rw [hnone]
      exact ih (hlater _ rfl) hrun' hend
    · obtain ⟨v', hv', huv'⟩ := perform_sameOutcome hend hperform
      rw [hacc, Option.toList_some, List.singleton_append, performAll, hv']
      exact ih (hlater u (perform_host hperform).1) hrun' huv'

/-- Settles O55: a state has its own outcome. -/
theorem timedRunsRefineCommandOrder : Obligations.TimedRunsRefineCommandOrder := by
  intro n s t hreset hrun
  obtain ⟨u, hu, hregs, hobs⟩ := run_sameOutcome hreset hrun ⟨rfl, rfl⟩
  exact ⟨u, hu, hregs, hobs⟩

end Sys2Proof.Proofs

/-! ## The status ports

The status word is an `append` of its fields; a field is found by skipping those below it. -/

namespace Sys2Proof.Proofs

open Sys2Proof.Machine Sys2Proof.Laws

/-- A field that does not begin in the low part lies in the high part. -/
theorem skip_field {v w start len : Nat} {hi : BitVec v} {lo : BitVec w} {f : BitVec len} (hw : w ≤ start)
    (h : hi.extractLsb' (start - w) len = f) : (hi ++ lo).extractLsb' start len = f :=
  (BitVec.extractLsb'_append_eq_of_le hw).trans h

theorem getLsbD_of_field {w i : Nat} {x : BitVec w} {b : Bool} (h : x.extractLsb' i 1 = BitVec.ofBool b) :
    x.getLsbD i = b := by
  rw [BitVec.getLsbD_eq_extractLsb', h]
  cases b <;> rfl

section
variable (s : State)

theorem statusWord_fsm : (statusWord s).extractLsb' 0 2 = fsmCode s.fsm :=
  BitVec.extractLsb'_append_eq_right

theorem statusWord_scheme : (statusWord s).extractLsb' 2 3 = s.scheme := by
  apply skip_field (by decide)
  exact BitVec.extractLsb'_append_eq_right

theorem statusWord_scr : (statusWord s).extractLsb' 5 2 = s.scr := by
  iterate 2 apply skip_field (by decide)
  exact BitVec.extractLsb'_append_eq_right

theorem statusWord_errCode : (statusWord s).extractLsb' 7 2 = errBits s.errCode := by
  iterate 3 apply skip_field (by decide)
  exact BitVec.extractLsb'_append_eq_right

theorem statusWord_lastPol : (statusWord s).getLsbD 9 = s.lastPol := by
  apply getLsbD_of_field
  iterate 4 apply skip_field (by decide)
  exact BitVec.extractLsb'_append_eq_right

theorem statusWord_onesPar : (statusWord s).getLsbD 10 = s.onesPar := by
  apply getLsbD_of_field
  iterate 5 apply skip_field (by decide)
  exact BitVec.extractLsb'_append_eq_right

theorem statusWord_zeroCnt : (statusWord s).extractLsb' 11 4 = s.zeroCnt := by
  iterate 6 apply skip_field (by decide)
  exact BitVec.extractLsb'_append_eq_right

theorem statusWord_dlLength : (statusWord s).extractLsb' 15 4 = BitVec.ofNat 4 s.dl.length := by
  iterate 7 apply skip_field (by decide)
  exact BitVec.extractLsb'_append_eq_right

theorem statusWord_encLvl : (statusWord s).getLsbD 19 = s.encLvl := by
  apply getLsbD_of_field
  iterate 8 apply skip_field (by decide)
  exact BitVec.extractLsb'_append_eq_right

theorem statusWord_amiPos : (statusWord s).getLsbD 20 = s.amiPos := by
  apply getLsbD_of_field
  iterate 9 apply skip_field (by decide)
  exact BitVec.extractLsb'_append_eq_right

theorem statusWord_reserved : (statusWord s).extractLsb' 21 11 = 0 := by
  iterate 9 apply skip_field (by decide)
  exact BitVec.extractLsb'_append_eq_left

end

/-- R140: the code 0 is the one of no error. -/
theorem err_iff (s : State) : (ports s).err = true ↔ s.errCode ≠ .none := by
  change (errBits s.errCode != 0b00#2) = true ↔ _
  cases s.errCode <;> decide

/-- Settles O57, field by field; the line's length fits its four bits. -/
theorem statusWordShowsTheRegisters : Obligations.StatusWordShowsTheRegisters := by
  intro s hdl
  have hlength : ((statusWord s).extractLsb' 15 4).toNat = s.dl.length := by
    rw [statusWord_dlLength, BitVec.toNat_ofNat]
    omega
  refine ⟨?_, ?_, statusWord_scheme s, statusWord_scr s, statusWord_lastPol s, statusWord_onesPar s,
    statusWord_zeroCnt s, hlength, statusWord_encLvl s, statusWord_amiPos s, statusWord_reserved s, rfl, rfl, err_iff s⟩
  · exact (statusWord_fsm s).trans (by cases s.fsm <;> rfl)
  · exact (statusWord_errCode s).trans (by cases s.errCode <;> rfl)

end Sys2Proof.Proofs

/-! PROOFS of the statements about the encodings (spec/30_encoding.md): the decoder and the encoder, the words that open a
frame or are malformed, the Done beat of END, the assembler's pseudo-instructions, and the `dline` and output ports. -/

/-! ## The decoder and the encoder

A word is the `append` of its fields (R61), and the decoder reads them one by one: `decode` is described once for each value
of the op field. Both directions of the agreement with `encode` go through these four equations. -/

namespace Sys2Proof.Proofs

open Sys2Proof.Machine Sys2Proof.Laws

/-! ### The decoder, by the op field (R76) -/

section
variable {c : Word}

theorem decode_of_op_nop (hop : c.extractLsb' 6 2 = 0b00#2) :
    decode c = if c.extractLsb' 0 6 = 0#6 then .instr .nop else .malformed .nop := by
  rw [decode, hop]; rfl

theorem decode_of_op_start (hop : c.extractLsb' 6 2 = 0b01#2) :
    decode c =
      if c.extractLsb' 3 1 = 0#1 then .instr (.start (c.extractLsb' 4 2) (c.extractLsb' 0 3)) else .malformed .start := by
  rw [decode, hop]; rfl

theorem decode_of_op_sym (hop : c.extractLsb' 6 2 = 0b10#2) :
    decode c =
      if c.extractLsb' 2 4 = 0#4 then .instr (symInstr (Symbol.ofCode (c.extractLsb' 0 2))) else .malformed .sym := by
  rw [decode, hop]; rfl

theorem decode_of_op_end (hop : c.extractLsb' 6 2 = 0b11#2) :
    decode c = if c.extractLsb' 0 6 = 0#6 then .instr .endFrame else .malformed .endFrame := by
  rw [decode, hop]; rfl

end

/-- Settles O4: each clause is one branch of the decoder's equation for its op. -/
theorem decoderFollowsOpAndReservedBits : Obligations.DecoderFollowsOpAndReservedBits := by
  intro c
  refine ⟨fun hop hres => ?_, fun hop hres => ?_, fun hop hres => ?_, fun hop hres => ?_,
    fun hop hres => ⟨.nop, ?_⟩, fun hop hres => ⟨.start, ?_⟩, fun hop hres => ⟨.sym, ?_⟩,
    fun hop hres => ⟨.endFrame, ?_⟩⟩
  · exact (decode_of_op_nop hop).trans (if_pos hres)
  · exact (decode_of_op_start hop).trans (if_pos hres)
  · exact (decode_of_op_sym hop).trans (if_pos hres)
  · exact (decode_of_op_end hop).trans (if_pos hres)
  · exact (decode_of_op_nop hop).trans (if_neg hres)
  · exact (decode_of_op_start hop).trans (if_neg hres)
  · exact (decode_of_op_sym hop).trans (if_neg hres)
  · exact (decode_of_op_end hop).trans (if_neg hres)

/-! ### A word is its fields put together (R61) -/

theorem op_append_low (c : Word) : c.extractLsb' 6 2 ++ c.extractLsb' 0 6 = c :=
  BitVec.extractLsb'_append_extractLsb'

theorem op_append_symFields (c : Word) : c.extractLsb' 6 2 ++ c.extractLsb' 2 4 ++ c.extractLsb' 0 2 = c := by
  rw [BitVec.extractLsb'_append_extractLsb'_eq_extractLsb' (show 6 = 2 + 4 from rfl)]
  exact BitVec.extractLsb'_append_extractLsb'

theorem op_append_startFields (c : Word) :
    c.extractLsb' 6 2 ++ c.extractLsb' 4 2 ++ c.extractLsb' 3 1 ++ c.extractLsb' 0 3 = c := by
  rw [BitVec.extractLsb'_append_extractLsb'_eq_extractLsb' (show 6 = 4 + 2 from rfl),
    BitVec.extractLsb'_append_extractLsb'_eq_extractLsb' (show 4 = 3 + 1 from rfl)]
  exact BitVec.extractLsb'_append_extractLsb'

theorem op_cases (b : BitVec 2) : b = 0b00#2 ∨ b = 0b01#2 ∨ b = 0b10#2 ∨ b = 0b11#2 := by revert b; decide

theorem symbol_code_ofCode (b : BitVec 2) : (Symbol.ofCode b).code = b := by revert b; decide

theorem encode_symInstr (d : Symbol) : encode (symInstr d) = 0b10#2 ++ 0b0000#4 ++ d.code := by cases d <;> rfl

/-! ### Agreement -/

/-- R61, R62: the fields of a START word. -/
theorem decode_encode_start (m : BitVec 2) (k : BitVec 3) : decode (encode (.start m k)) = .instr (.start m k) := by
  have hop : (encode (.start m k)).extractLsb' 6 2 = 0b01#2 := by
    iterate 2 apply skip_field (by decide)
    exact BitVec.extractLsb'_append_eq_left
  have hscr : (encode (.start m k)).extractLsb' 4 2 = m := by
    iterate 2 apply skip_field (by decide)
    exact BitVec.extractLsb'_append_eq_right
  have hres : (encode (.start m k)).extractLsb' 3 1 = 0#1 := by
    apply skip_field (by decide)
    exact BitVec.extractLsb'_append_eq_right
  have hscheme : (encode (.start m k)).extractLsb' 0 3 = k := BitVec.extractLsb'_append_eq_right
  rw [decode_of_op_start hop, if_pos hres, hscr, hscheme]

theorem decode_encode (i : Instr) : decode (encode i) = .instr i := by
  cases i with
  | start m k => exact decode_encode_start m k
  | nop | sym0 | sym1 | symPlus | symMinus | endFrame => rfl

/-- R76: no bit of a word that decodes is dropped; its fields, with the reserved bits 0, are those of the command's word. -/
theorem encode_of_decode {c : Word} {i : Instr} (h : decode c = .instr i) : encode i = c := by
  rcases op_cases (c.extractLsb' 6 2) with hop | hop | hop | hop
  · rw [decode_of_op_nop hop] at h
    split at h <;> rename_i hres <;> cases h
    exact (congrArg₂ (· ++ ·) hop hres).symm.trans (op_append_low c)
  · rw [decode_of_op_start hop] at h
    split at h <;> rename_i hres <;> cases h
    conv_rhs => rw [← op_append_startFields c, hop, hres]
    rfl
  · rw [decode_of_op_sym hop] at h
    split at h <;> rename_i hres <;> cases h
    conv_rhs => rw [← op_append_symFields c, hop, hres]
    rw [encode_symInstr, symbol_code_ofCode]
  · rw [decode_of_op_end hop] at h
    split at h <;> rename_i hres <;> cases h
    exact (congrArg₂ (· ++ ·) hop hres).symm.trans (op_append_low c)

/-- Settles O5. -/
theorem decodeEncodeAgree : Obligations.DecodeEncodeAgree :=
  ⟨decode_encode, fun _ _ => encode_of_decode⟩

/-- Settles O3: the first ten words are the words of their commands; the last two have a reserved bit set. -/
theorem writtenWordsDecode : Obligations.WrittenWordsDecode :=
  ⟨decode_encode .nop, decode_encode (.start 0b00#2 0b000#3), decode_encode (.start 0b01#2 0b100#3),
    decode_encode (.start 0b10#2 0b100#3), decode_encode (.start 0b11#2 0b111#3), decode_encode .sym0,
    decode_encode .sym1, decode_encode .symPlus, decode_encode .symMinus, decode_encode .endFrame,
    (decode_of_op_start (by decide)).trans (if_neg (by decide)),
    (decode_of_op_sym (by decide)).trans (if_neg (by decide))⟩

end Sys2Proof.Proofs

/-! ## The well-formed words

The masks of the opcode table say of a word what the decoder reads in its fields (R61, R68). -/

namespace Sys2Proof.Proofs

open Sys2Proof.Machine Sys2Proof.Laws

theorem nopWord_iff (c : Word) : nopWord c = true ↔ c.extractLsb' 6 2 = 0b00#2 ∧ c.extractLsb' 0 6 = 0#6 := by
  revert c; decide

theorem startWord_iff (c : Word) : startWord c = true ↔ c.extractLsb' 6 2 = 0b01#2 ∧ c.extractLsb' 3 1 = 0#1 := by
  revert c; decide

theorem symWord_iff (c : Word) : symWord c = true ↔ c.extractLsb' 6 2 = 0b10#2 ∧ c.extractLsb' 2 4 = 0#4 := by
  revert c; decide

theorem endWord_iff (c : Word) : endWord c = true ↔ c.extractLsb' 6 2 = 0b11#2 ∧ c.extractLsb' 0 6 = 0#6 := by
  revert c; decide

/-- R68: the word of every command is well-formed. -/
theorem encode_wellFormed (i : Instr) : wordWellFormed (encode i) = true := by
  cases i with
  | nop => exact EncodedWordWellFormed.nop
  | start m k => exact EncodedWordWellFormed.start m k
  | sym0 => exact EncodedWordWellFormed.sym0
  | sym1 => exact EncodedWordWellFormed.sym1
  | symPlus => exact EncodedWordWellFormed.symPlus
  | symMinus => exact EncodedWordWellFormed.symMinus
  | endFrame => exact EncodedWordWellFormed.endFrame

theorem decode_of_wellFormed {c : Word} (h : wordWellFormed c = true) : ∃ i, decode c = .instr i := by
  simp only [wordWellFormed, Bool.or_eq_true] at h
  rcases h with ((h | h) | h) | h
  · obtain ⟨hop, hres⟩ := (nopWord_iff c).mp h
    exact ⟨_, (decode_of_op_nop hop).trans (if_pos hres)⟩
  · obtain ⟨hop, hres⟩ := (startWord_iff c).mp h
    exact ⟨_, (decode_of_op_start hop).trans (if_pos hres)⟩
  · obtain ⟨hop, hres⟩ := (symWord_iff c).mp h
    exact ⟨_, (decode_of_op_sym hop).trans (if_pos hres)⟩
  · obtain ⟨hop, hres⟩ := (endWord_iff c).mp h
    exact ⟨_, (decode_of_op_end hop).trans (if_pos hres)⟩

/-- R61, R68: the decoder and the masks of the opcode table agree. -/
theorem decodes_iff_wellFormed (c : Word) : (∃ i, decode c = .instr i) ↔ wordWellFormed c = true :=
  ⟨fun ⟨i, h⟩ => encode_of_decode h ▸ encode_wellFormed i, decode_of_wellFormed⟩

theorem decode_of_not_wellFormed {c : Word} (h : wordWellFormed c = false) : ∃ op, decode c = .malformed op := by
  cases hc : decode c with
  | malformed op => exact ⟨op, rfl⟩
  | instr i => exact absurd ((decodes_iff_wellFormed c).mp ⟨i, hc⟩) (by simp [h])

/-- Settles O6: the word of every command is listed, and every listed word is well-formed by the masks. -/
theorem wellFormedWordsAreTheTables : Obligations.WellFormedWordsAreTheTables := by
  intro c
  refine ⟨⟨fun ⟨i, hc⟩ => ?_, fun hlisted => decode_of_wellFormed ?_⟩, decodes_iff_wellFormed c⟩
  · rw [← encode_of_decode hc]
    cases i with
    | start m k => clear hc; revert m k; decide
    | nop | sym0 | sym1 | symPlus | symMinus | endFrame => decide
  · refine List.all_eq_true.mp ?_ c hlisted
    decide

/-- Settles O16: such a word is malformed to the decoder, and R146 is the meaning of that. -/
theorem malformedWordRaisesOrIsIgnored : Obligations.MalformedWordRaisesOrIsIgnored := by
  intro s c h
  obtain ⟨op, hc⟩ := decode_of_not_wellFormed h
  rw [perform_malformed hc, malformedWord]
  cases hs : s.fsm with
  | error => exact ⟨fun _ => rfl, fun hne => absurd rfl hne⟩
  | idle => exact ⟨fun he => (nomatch he), fun _ => rfl⟩
  | active => exact ⟨fun he => (nomatch he), fun _ => rfl⟩

end Sys2Proof.Proofs

/-! ## The words that open a frame -/

namespace Sys2Proof.Proofs

open Sys2Proof.Machine Sys2Proof.Laws

/-- R83: a START opens an ACTIVE frame exactly when its configuration is valid, from any state. -/
theorem execStart_active_iff (m : BitVec 2) (k : BitVec 3) (s : State) :
    (∃ t, execStart m k s = .next t ∧ t.fsm = .active) ↔ validConfig k m = true := by
  unfold execStart
  split <;> rename_i hvalid
  · exact ⟨fun _ => hvalid, fun _ => ⟨_, rfl, rfl⟩⟩
  · refine ⟨fun ⟨t, ht, ha⟩ => ?_, fun h => absurd h hvalid⟩
    cases ht
    cases ha

/-- From IDLE only a START leads to ACTIVE (R86, R92, R146). -/
theorem start_of_idle_to_active {c : Word} {s t : State} (hs : s.fsm = .idle) (h : perform c s = .next t)
    (ha : t.fsm = .active) : ∃ m k, decode c = .instr (.start m k) ∧ execStart m k s = .next t := by
  rcases perform_spec h with ⟨i, hc, hexec⟩ | ⟨op, -, rfl⟩
  · rcases instr_cases i with rfl | ⟨m, k, rfl⟩ | ⟨d, rfl⟩ | rfl
    · cases hexec
      simp [hs] at ha
    · exact ⟨m, k, hc, hexec⟩
    · rw [exec_symInstr, symCommand, hs] at hexec
      cases hexec
      cases ha
    · change execEnd s = .next t at hexec
      rw [execEnd, hs] at hexec
      cases hexec
      simp [hs] at ha
  · simp [malformedWord, hs] at ha

/-- R67, R83: from IDLE a word opens an ACTIVE frame exactly when it is the word of a START with a valid configuration. -/
theorem opens_frame_iff (c : Word) {s : State} (hs : s.fsm = .idle) :
    (∃ t, perform c s = .next t ∧ t.fsm = .active) ↔
      ∃ m k, validConfig k m = true ∧ encode (.start m k) = c := by
  constructor
  · rintro ⟨t, h, ha⟩
    obtain ⟨m, k, hc, hstart⟩ := start_of_idle_to_active hs h ha
    exact ⟨m, k, (execStart_active_iff m k s).mp ⟨t, hstart, ha⟩, encode_of_decode hc⟩
  · rintro ⟨m, k, hvalid, rfl⟩
    rw [perform_instr (decode_encode _)]
    exact (execStart_active_iff m k s).mpr hvalid

/-- Settles O15: the valid configurations (R67) have these seven START words. -/
theorem sevenWordsOpenAFrame : Obligations.SevenWordsOpenAFrame := by
  intro s c hs
  rw [opens_frame_iff c hs]
  constructor
  · rintro ⟨m, k, hvalid, rfl⟩
    revert m k
    decide
  · simp only [List.mem_cons, List.not_mem_nil, or_false]
    rintro (rfl | rfl | rfl | rfl | rfl | rfl | rfl)
    · exact ⟨ScrMode.code .none, Scheme.code .nrzL, rfl, rfl⟩
    · exact ⟨ScrMode.code .none, Scheme.code .nrzI, rfl, rfl⟩
    · exact ⟨ScrMode.code .none, Scheme.code .manchester, rfl, rfl⟩
    · exact ⟨ScrMode.code .none, Scheme.code .diffManchester, rfl, rfl⟩
    · exact ⟨ScrMode.code .none, Scheme.code .ami, rfl, rfl⟩
    · exact ⟨ScrMode.code .b8zs, Scheme.code .ami, rfl, rfl⟩
    · exact ⟨ScrMode.code .hdb3, Scheme.code .ami, rfl, rfl⟩

end Sys2Proof.Proofs

/-! ## The beats of a command (R70)

A command only appends to `Q`. Its Data beats come from the encoder, and its one Done beat from END. -/

namespace Sys2Proof.Proofs

open Sys2Proof.Machine Sys2Proof.Laws

/-- `t` has the beats of `s` in `Q` and then beats that are no Done. -/
def AppendsData (s t : State) : Prop := ∃ beats : List Beat, t.q = s.q ++ beats ∧ ∀ b ∈ beats, isDone b = false

theorem appendsData_of_q_eq {s t : State} (h : t.q = s.q) : AppendsData s t := ⟨[], by simp [h], by simp⟩

theorem enc_appendsData {d : Symbol} {s t : State} (h : enc d s = .next t) : AppendsData s t := by
  obtain ⟨k, ls, -, -, rfl, -⟩ := enc_spec h
  exact ⟨[.data d ls], rfl, by simp [isDone]⟩

theorem flush_appendsData {ds : List Symbol} {s t : State} (h : flush ds s = .next t) : AppendsData s t := by
  rcases flush_spec h with ⟨-, rfl⟩ | ⟨k, beats, -, -, rfl, hbeats⟩
  · exact appendsData_of_q_eq rfl
  · exact ⟨beats, rfl, hbeats.noDone⟩

/-- R102: a scrambler writes no beat; the symbol that leaves the line is encoded. -/
theorem throughLine_appendsData {n : Nat} {m : ScrMode} {d : Symbol} {s t : State}
    (h : throughLine n (scramblerUpdate m d) s = .next t) : AppendsData s t := by
  rcases throughLine_spec h with ⟨-, -, rfl⟩ | ⟨-, -, rfl⟩ | ⟨x, rest, -, -, -, henc⟩
  · exact appendsData_of_q_eq (scramblerUpdate_only m d s).q
  · exact appendsData_of_q_eq (scramblerUpdate_only m d s).q
  · obtain ⟨beats, hq, hdone⟩ := enc_appendsData henc
    exact ⟨beats, by rw [hq, (scramblerUpdate_only m d _).q], hdone⟩

theorem acceptedSymbol_appendsData {d : Symbol} {s t : State} (h : acceptedSymbol d s = .next t) : AppendsData s t := by
  rcases acceptedSymbol_spec h with ⟨-, henc⟩ | ⟨m, -, -, -, hthrough⟩
  · exact enc_appendsData henc
  · exact throughLine_appendsData hthrough

theorem symCommand_appendsData {d : Symbol} {s t : State} (h : symCommand d s = .next t) : AppendsData s t := by
  rcases symCommand_spec h with ⟨-, rfl⟩ | ⟨-, rfl⟩ | ⟨-, -, rfl⟩ | ⟨-, -, hacc⟩
  · exact appendsData_of_q_eq rfl
  · exact appendsData_of_q_eq rfl
  · exact appendsData_of_q_eq rfl
  · exact acceptedSymbol_appendsData (s := countSym s) hacc

/-- R90 to R92: END appends Data beats and then its Done beat. -/
theorem execEnd_appends {s t : State} (h : execEnd s = .next t) :
    ∃ front e, t.q = s.q ++ (front ++ [Beat.done e]) ∧ ∀ b ∈ front, isDone b = false := by
  rcases execEnd_spec h with ⟨-, rfl⟩ | ⟨-, rfl⟩ | ⟨-, u, hflush, rfl⟩
  · exact ⟨[], _, rfl, by simp⟩
  · exact ⟨[], _, rfl, by simp⟩
  · obtain ⟨front, hq, hdone⟩ := flush_appendsData hflush
    exact ⟨front, .none, by simp [hq], hdone⟩

theorem malformedWord_q (s : State) : (malformedWord s).q = s.q := by
  unfold malformedWord; split <;> rfl

theorem perform_appendsData {c : Word} {s t : State} (h : perform c s = .next t) (hc : decode c ≠ .instr .endFrame) :
    AppendsData s t := by
  rcases perform_spec h with ⟨i, hi, hexec⟩ | ⟨op, -, rfl⟩
  · rcases instr_cases i with rfl | ⟨m, k, rfl⟩ | ⟨d, rfl⟩ | rfl
    · cases hexec; exact appendsData_of_q_eq rfl
    · exact appendsData_of_q_eq (execStart_spec hexec).2
    · exact symCommand_appendsData (exec_symInstr d s ▸ hexec)
    · exact absurd hi hc
  · exact appendsData_of_q_eq (malformedWord_q s)

/-- Settles O35. -/
theorem exactlyOneDoneBeatPerEnd : Obligations.ExactlyOneDoneBeatPerEnd := by
  intro s t c h
  by_cases hc : decode c = .instr .endFrame
  · have hend : execEnd s = .next t := (perform_instr hc s).symm.trans h
    obtain ⟨front, e, hq, hdone⟩ := execEnd_appends hend
    exact ⟨front ++ [Beat.done e], hq, fun _ => ⟨front, e, rfl, hdone⟩, fun hne => absurd hc hne⟩
  · obtain ⟨beats, hq, hdone⟩ := perform_appendsData h hc
    exact ⟨beats, hq, fun he => absurd he hc, fun _ => hdone⟩

end Sys2Proof.Proofs

/-! ## BITS and FRAME lines (R75) -/

namespace Sys2Proof.Proofs

open Sys2Proof.Machine Sys2Proof.Laws

/-- R75: a BITS line is one SYM line a character. -/
theorem assemble_sym_lines (str : List Symbol) : assemble (str.map .sym) = some (str.map symWordOf) := by
  induction str with
  | nil => rfl
  | cons d str ih => simp [assemble, assembleLine, ih]

/-- Settles O7: the START line of a FRAME line fails on the same operands, and its words come first. -/
theorem frameLineExpands : Obligations.FrameLineExpands := by
  refine ⟨fun k m str => ?_, fun str => (assemble_sym_lines str).symm⟩
  simp only [assemble, assembleLine]
  cases schemeArgCode k with
  | none => rfl
  | some kc =>
    cases scrArgCode m with
    | none => rfl
    | some mc => rfl

end Sys2Proof.Proofs

/-! ## The `dline` and output ports -/

namespace Sys2Proof.Proofs

open Sys2Proof.Machine Sys2Proof.Laws

/-! ### `dline` (R73) -/

/-- A field of a truncated number is a field of the number. -/
theorem extractLsb'_ofNat_of_le {w start len : Nat} (n : Nat) (h : start + len ≤ w) :
    (BitVec.ofNat w n).extractLsb' start len = BitVec.ofNat len (n >>> start) := by
  apply BitVec.eq_of_getLsbD_eq
  intro i hi
  have hbit : start + i < w := by omega
  rw [BitVec.getLsbD_extractLsb', BitVec.getLsbD_ofNat, BitVec.getLsbD_ofNat, Nat.testBit_shiftRight]
  simp [hi, hbit]

/-- Dropping an entry of the delay line shifts its code out of the number. -/
theorem dlineNat_shiftRight (dl : List Symbol) (i : Nat) : dlineNat dl >>> (2 * i) = dlineNat (dl.drop i) := by
  induction i generalizing dl with
  | zero => rfl
  | succ i ih =>
    cases dl with
    | nil => simp [dlineNat]
    | cons d ds =>
      have hcode : d.code.toNat < 4 := d.code.isLt
      have hshift : dlineNat (d :: ds) >>> 2 = dlineNat ds := by
        rw [dlineNat, Nat.shiftRight_eq_div_pow]; omega
      rw [List.drop_succ_cons, Nat.mul_succ, Nat.add_comm, Nat.shiftRight_add, hshift, ih]

theorem dlineNat_low (d : Symbol) (ds : List Symbol) : BitVec.ofNat 2 (dlineNat (d :: ds)) = d.code := by
  apply BitVec.eq_of_toNat_eq
  have hcode : d.code.toNat < 4 := d.code.isLt
  rw [BitVec.toNat_ofNat, dlineNat]
  omega

/-- Entry i of the port is the first code of what follows in the line. -/
theorem dline_entry (s : State) {i : Nat} (hi : i < Config.dlDepth) :
    (ports s).dline.extractLsb' (2 * i) 2 = BitVec.ofNat 2 (dlineNat (s.dl.drop i)) := by
  have hfit : 2 * i + 2 ≤ 16 := by unfold Config.dlDepth at hi; omega
  have hport : (ports s).dline = BitVec.ofNat 16 (dlineNat s.dl) := rfl
  rw [hport, extractLsb'_ofNat_of_le _ hfit, dlineNat_shiftRight]

/-- Settles O58. -/
theorem dlinePortShowsTheDelayLine : Obligations.DlinePortShowsTheDelayLine := by
  intro s i _ hi
  rw [dline_entry s hi]
  refine ⟨fun d hd => ?_, fun hend => ?_⟩
  · obtain ⟨hlt, rfl⟩ := List.getElem?_eq_some_iff.mp hd
    rw [List.drop_eq_getElem_cons hlt, dlineNat_low]
    cases s.dl[i] <;> rfl
  · rw [List.drop_eq_nil_of_le hend]
    rfl

/-! ### The output port (R69 to R71) -/

/-- What the port shows in a cycle, field by field. -/
structure OutFields (s : State) (done : BitVec 1) (err sym : BitVec 2) (two : BitVec 1) (lvl0 lvl1 : BitVec 2) : Prop where
  outDone : (ports s).outDone = done
  outErr : (ports s).outErr = err
  outSym : (ports s).outSym = sym
  outTwo : (ports s).outTwo = two
  outLvl0 : (ports s).outLvl0 = lvl0
  outLvl1 : (ports s).outLvl1 = lvl1

/-- R71: the fields of the packed word, with the five bits of the levels as one part of it. -/
theorem outFields_of_outBits {s : State} {done : BitVec 1} {err sym : BitVec 2} {two : BitVec 1} {lvl0 lvl1 : BitVec 2}
    (h : outBits s = done ++ err ++ sym ++ (two ++ lvl0 ++ lvl1)) : OutFields s done err sym two lvl0 lvl1 := by
  constructor <;> simp only [ports, h]
  · iterate 3 apply skip_field (by decide)
    exact BitVec.extractLsb'_eq_self
  · iterate 2 apply skip_field (by decide)
    exact BitVec.extractLsb'_append_eq_right
  · apply skip_field (by decide)
    exact BitVec.extractLsb'_append_eq_right
  · rw [BitVec.extractLsb'_append_eq_of_add_le (by decide)]
    iterate 2 apply skip_field (by decide)
    exact BitVec.extractLsb'_eq_self
  · rw [BitVec.extractLsb'_append_eq_of_add_le (by decide)]
    apply skip_field (by decide)
    exact BitVec.extractLsb'_append_eq_right
  · rw [BitVec.extractLsb'_append_eq_of_add_le (by decide)]
    exact BitVec.extractLsb'_append_eq_right

theorem outBits_cons {s : State} {b : Beat} {rest : List Beat} (hq : s.q = b :: rest) : outBits s = outw b := by
  rw [outBits, hq]

theorem outValid_nil {s : State} (hq : s.q = []) : (ports s).outValid = false := by simp [ports, hq]

theorem outValid_cons {s : State} {b : Beat} {rest : List Beat} (hq : s.q = b :: rest) : (ports s).outValid = true := by
  simp [ports, hq]

theorem outFields_nil {s : State} (hq : s.q = []) : OutFields s 0 0 0 0 0 0 :=
  outFields_of_outBits (by rw [outBits, hq]; rfl)

/-- R69: a one-level beat shows its level in `out_lvl0`. -/
theorem outFields_one {s : State} {d : Symbol} {l0 : Level} {rest : List Beat} (hq : s.q = .data d (.one l0) :: rest) :
    OutFields s 0 0 d.code 0 (levelCode l0) 0 :=
  outFields_of_outBits (outBits_cons hq)

theorem outFields_two {s : State} {d : Symbol} {l0 l1 : Level} {rest : List Beat}
    (hq : s.q = .data d (.two l0 l1) :: rest) : OutFields s 0 0 d.code 1 (levelCode l0) (levelCode l1) :=
  outFields_of_outBits (outBits_cons hq)

/-- R70: of a Done beat only the error is shown. -/
theorem outFields_done {s : State} {e : ErrCode} {rest : List Beat} (hq : s.q = .done e :: rest) :
    OutFields s 1 (errBits e) 0 0 0 0 :=
  outFields_of_outBits (outBits_cons hq)

/-- Settles O59, by the beat at the head of `Q`. -/
theorem outputPortPresentsTheHeadBeat : Obligations.OutputPortPresentsTheHeadBeat := by
  intro s rest
  refine ⟨fun hq => ?_, fun d l0 hq => ?_, fun d l0 l1 hq => ?_, fun e hq => ?_⟩
  · have h := outFields_nil hq
    exact ⟨outValid_nil hq, h.outDone, h.outSym, h.outTwo, h.outLvl0, h.outLvl1, h.outErr⟩
  · have h := outFields_one hq
    exact ⟨outValid_cons hq, h.outDone, h.outSym.trans (by cases d <;> rfl), h.outTwo, h.outLvl0, h.outLvl1, h.outErr⟩
  · have h := outFields_two hq
    exact ⟨outValid_cons hq, h.outDone, h.outSym.trans (by cases d <;> rfl), h.outTwo, h.outLvl0, h.outLvl1, h.outErr⟩
  · have h := outFields_done hq
    exact ⟨outValid_cons hq, h.outDone, h.outSym, h.outTwo, h.outLvl0, h.outLvl1,
      h.outErr.trans (by cases e <;> rfl)⟩

/-! ### Level codes (R64) -/

/-- R64, U8: no level has the code `0b10`. -/
theorem levelCode_ne_undriven (l : Level) : levelCode l ≠ 0b10#2 := by cases l <;> decide

/-- Settles O60. -/
theorem levelCodesAreTwosComplement : Obligations.LevelCodesAreTwosComplement :=
  ⟨rfl, rfl, rfl, levelCode_ne_undriven⟩

end Sys2Proof.Proofs

/-! PROOFS of the statements about frame control (spec/40_frame_control.md): the commands one at a time, the beats and the
stall of a command, whole frames, and the frame law. -/

/-! ## One command -/

namespace Sys2Proof.Proofs

open Sys2Proof.Machine Sys2Proof.Laws

/-- R168: the clock edge at which a word is accepted. -/
theorem step_of_accepted {c : Word} {s : State} (h : accepted s = some c) : step s = perform c (endCycle s) := by
  obtain ⟨hrst, -⟩ := accepted_spec h
  rw [step, hrst, h]
  rfl

/-- Settles O8: the word is accepted, and the beat on the port, if there is one, is all that `Q` holds. -/
theorem stepRunsDecodedCommand : Obligations.StepRunsDecodedCommand := by
  intro s i hrst hvalid hq hi
  have hacc : accepted s = some (pins s).cmd := by
    have hready : cmdReady s = true := decide_eq_true hq
    simp [accepted, hrst, hvalid, hready]
  have hend : endCycle s = { s with q := [], presented := s.presented ++ s.q, host := s.host.tail } := by
    obtain ⟨-, -, -, -, hempty⟩ := accepted_spec hacc
    rw [endCycle_q] at hempty
    rw [endCycle, hempty, List.take_of_length_le hq]
  rw [step_of_accepted hacc, perform_instr hi, hend]

/-- Settles O12. -/
theorem nopChangesNothing : Obligations.NopChangesNothing :=
  ⟨decode_encode .nop, fun _ => rfl⟩

/-- R67, R83: the valid configurations, by the codes of their selectors. -/
theorem validConfig_iff (k : BitVec 3) (m : BitVec 2) :
    validConfig k m = true ↔ k.toNat ≤ 4 ∧ m.toNat ≠ 3 ∧ (m.toNat = 0 ∨ k.toNat = 4) := by
  revert k m
  decide

theorem execStart_valid {m : BitVec 2} {k : BitVec 3} (h : validConfig k m = true) (s : State) :
    execStart m k s = .next (openFrame m k s) := if_pos h

theorem execStart_invalid {m : BitVec 2} {k : BitVec 3} (h : validConfig k m = false) (s : State) :
    execStart m k s = .next (errorEntry .invalidScheme 0 (openFrame m k s)) := if_neg (Bool.eq_false_iff.mp h)

/-- R83: the complement of the valid configurations has the three causes of R84. -/
theorem validConfig_eq_false {m : BitVec 2} {k : BitVec 3}
    (h : 5 ≤ k.toNat ∨ m.toNat = 3 ∨ (m.toNat ≠ 0 ∧ k.toNat ≠ 4)) : validConfig k m = false := by
  rw [Bool.eq_false_iff, ne_eq, validConfig_iff]
  omega

/-- Settles O13. -/
theorem startOpensValidFrame : Obligations.StartOpensValidFrame :=
  fun s m k hk hm hkm => execStart_valid ((validConfig_iff k m).mpr ⟨hk, hm, hkm⟩) s

/-- Settles O14. -/
theorem startRejectsInvalidConfiguration : Obligations.StartRejectsInvalidConfiguration :=
  fun s _ _ h => execStart_invalid (validConfig_eq_false h) s

/-- R86. -/
theorem symCommand_idle {s : State} (hs : s.fsm = .idle) (d : Symbol) :
    symCommand d s = .next (errorEntry .invalidCommand s.symCnt (countSym s)) := by rw [symCommand, hs]

/-- R87. -/
theorem symCommand_error {s : State} (hs : s.fsm = .error) (d : Symbol) : symCommand d s = .next (countSym s) := by
  rw [symCommand, hs]

/-- R88. -/
theorem symCommand_rejected {d : Symbol} {s : State} (ha : s.fsm = .active) (hacc : accepts s.scheme s.scr d = false) :
    symCommand d s = .next (errorEntry .invalidSymbol s.symCnt (countSym s)) := by
  rw [symCommand, ha]
  exact if_neg (Bool.eq_false_iff.mp hacc)

/-- R91. -/
theorem execEnd_error {s : State} (hs : s.fsm = .error) :
    execEnd s = .next (emit (.done s.errCode) (errorExit s)) := by rw [execEnd, hs]

/-- R92. -/
theorem execEnd_idle {s : State} (hs : s.fsm = .idle) :
    execEnd s = .next (emit (.done .invalidCommand) (noteStrayEnd s)) := by rw [execEnd, hs]

/-- Settles O17: the symbol leaves a failed frame, which the END closes. -/
theorem symWithNoFrameRaisesInvalidCommand : Obligations.SymWithNoFrameRaisesInvalidCommand :=
  fun s d hs =>
    ⟨errorEntry .invalidCommand s.symCnt (countSym s), (exec_symInstr d s).trans (symCommand_idle hs d), rfl,
      execEnd_error (errorEntry_fsm _ _ _)⟩

/-- Settles O18. -/
theorem symInErrorOnlyCounts : Obligations.SymInErrorOnlyCounts :=
  fun s d hs => (exec_symInstr d s).trans (symCommand_error hs d)

/-- R88: the symbols that a frame accepts. -/
theorem accepts_iff (k : BitVec 3) (m : BitVec 2) (d : Symbol) :
    accepts k m d = true ↔ d = .zero ∨ d = .one ∨ (k = 0b100#3 ∧ m = 0b00#2) := by
  cases d <;> simp [accepts, forced, Scheme.code, ScrMode.code]

theorem accepts_forced_eq_false {k : BitVec 3} {m : BitVec 2} {d : Symbol} (hd : d = .plus ∨ d = .minus)
    (h : ¬(k = 0b100#3 ∧ m = 0b00#2)) : accepts k m d = false := by
  rw [Bool.eq_false_iff, ne_eq, accepts_iff]
  rcases hd with rfl | rfl <;> simpa using h

/-- Settles O19. -/
theorem forcedPulseOutsidePlainAmiRaisesInvalidSymbol : Obligations.ForcedPulseOutsidePlainAmiRaisesInvalidSymbol :=
  fun _ ha hplain =>
    ⟨symCommand_rejected ha (accepts_forced_eq_false (.inl rfl) hplain),
      symCommand_rejected ha (accepts_forced_eq_false (.inr rfl) hplain)⟩

/-- R90: END in an ACTIVE frame whose line the scheme encodes. -/
theorem execEnd_active {k : Scheme} {s : State} (ha : s.fsm = .active) (hk : s.scheme = k.code)
    (hdl : ∀ d ∈ s.dl, Laws.Encodable k d) :
    ∃ beats, execEnd s = .next (emit (.done .none) (closeFrame (flushed k s.dl beats s))) ∧
      FlushBeats k s.encLvl s.amiPos s.dl beats := by
  obtain ⟨beats, hflush, hbeats⟩ := flush_next hk hdl
  refine ⟨beats, ?_, hbeats⟩
  rw [execEnd, ha, hflush, andThen_next]

/-- Settles O31. -/
theorem endFlushesAndClosesFrame : Obligations.EndFlushesAndClosesFrame := by
  intro s k ha hk hsym
  obtain ⟨beats, hend, hbeats⟩ := execEnd_active ha hk fun d hd => hsym.imp_right fun hbin => hbin d hd
  exact ⟨beats, hend, hbeats.noDone, hbeats.symbols, hbeats.levels⟩

/-- Settles O32. -/
theorem endInErrorReportsTheError : Obligations.EndInErrorReportsTheError := fun _ hs => execEnd_error hs

/-- Settles O33. -/
theorem endWithNoFrameReportsInvalidCommand : Obligations.EndWithNoFrameReportsInvalidCommand :=
  fun _ hs => execEnd_idle hs

end Sys2Proof.Proofs

/-! ## The number of beats of a command (R171) -/

namespace Sys2Proof.Proofs

open Sys2Proof.Machine Sys2Proof.Laws

/-- R102: a scrambler step emits one beat when the line is full, and none otherwise. -/
theorem throughLine_q_length {n : Nat} {m : ScrMode} {d : Symbol} {s t : State} (hn : 0 < n)
    (h : throughLine n (scramblerUpdate m d) s = .next t) :
    t.q.length = s.q.length + if s.dl.length = n then 1 else 0 := by
  rcases throughLine_spec h with ⟨hne, -, rfl⟩ | ⟨-, rfl, -⟩ | ⟨x, rest, hdl, hrest, -, henc⟩
  · rw [(scramblerUpdate_only m d s).q, if_neg hne, Nat.add_zero]
  · exact absurd hn (Nat.lt_irrefl 0)
  · obtain ⟨k, ls, -, -, rfl, -⟩ := enc_spec henc
    have honly := (scramblerUpdate_only m d { s with dl := rest }).q
    simp [encoded, honly, hdl, hrest]

/-- R101, R102: the beats of an accepted symbol: one, but none while the line of a scrambler fills. -/
def acceptedBeats (s : State) : Nat :=
  if s.scr = 0b00#2 then 1
  else if s.scr = 0b01#2 then (if s.dl.length = 8 then 1 else 0)
  else if s.dl.length = 4 then 1 else 0

theorem acceptedSymbol_q_length {d : Symbol} {s t : State} (h : acceptedSymbol d s = .next t) :
    t.q.length = s.q.length + acceptedBeats s := by
  rcases acceptedSymbol_spec h with ⟨hscr, henc⟩ | ⟨m, hm, hscr, -, hthrough⟩
  · obtain ⟨k, ls, -, -, rfl, -⟩ := enc_spec henc
    simp [encoded, acceptedBeats, hscr, ScrMode.code]
  · rw [throughLine_q_length (depth_pos hm) hthrough, acceptedBeats, hscr]
    cases m with
    | none => exact absurd rfl hm
    | b8zs | hdb3 => rfl

theorem symCommand_q_length {d : Symbol} {s t : State} (h : symCommand d s = .next t) :
    t.q.length = s.q.length +
      if s.fsm = .active ∧ (d = .zero ∨ d = .one ∨ (s.scheme = 0b100#3 ∧ s.scr = 0b00#2)) then acceptedBeats s
      else 0 := by
  simp only [← accepts_iff]
  rcases symCommand_spec h with ⟨hs, rfl⟩ | ⟨hs, rfl⟩ | ⟨-, hacc, rfl⟩ | ⟨hs, hacc, haccepted⟩
  · simp [hs]
  · simp [hs]
  · simp [hacc]
  · rw [if_pos ⟨hs, hacc⟩]
    exact acceptedSymbol_q_length (s := countSym s) haccepted

theorem execEnd_q_length {s t : State} (h : execEnd s = .next t) :
    t.q.length = s.q.length + if s.fsm = .active then s.dl.length + 1 else 1 := by
  rcases execEnd_spec h with ⟨hs, rfl⟩ | ⟨hs, rfl⟩ | ⟨hs, u, hflush, rfl⟩
  · simp [hs]
  · simp [hs]
  · have hu : u.q.length = s.q.length + s.dl.length := by
      rcases flush_spec hflush with ⟨hdl, rfl⟩ | ⟨k, beats, -, -, rfl, hbeats⟩
      · rw [hdl]; rfl
      · simp [flushed, hbeats.length]
    simp [hs, hu, Nat.add_assoc]

/-- A command word that is neither a SYM nor END emits nothing. -/
theorem perform_q_of_other {c : Word} {s t : State} (h : perform c s = .next t)
    (hsym : ∀ d, decode c ≠ .instr (symInstr d)) (hend : decode c ≠ .instr .endFrame) : t.q = s.q := by
  rcases perform_spec h with ⟨i, hi, hexec⟩ | ⟨op, -, rfl⟩
  · rcases instr_cases i with rfl | ⟨m, k, rfl⟩ | ⟨d, rfl⟩ | rfl
    · cases hexec; rfl
    · exact (execStart_spec hexec).2
    · exact absurd hi (hsym d)
    · exact absurd hi hend
  · exact malformedWord_q s

/-- Every command only appends to `Q` (R34). -/
theorem perform_q_append {c : Word} {s t : State} (h : perform c s = .next t) : ∃ beats, t.q = s.q ++ beats := by
  obtain ⟨beats, hq, -⟩ := exactlyOneDoneBeatPerEnd s t c h
  exact ⟨beats, hq⟩

/-- Settles O40: the invariant makes the command complete, and the beats are counted by its kind. -/
theorem beatsPerCommand : Obligations.BeatsPerCommand := by
  intro s c hinv
  obtain ⟨t, h, -⟩ := perform_next c (inv_iff_registers.mp hinv).1
  obtain ⟨beats, hq⟩ := perform_q_append h
  have hlen : t.q.length = s.q.length + beats.length := by rw [hq, List.length_append]
  refine ⟨t, beats, h, hq, fun d hc => ?_, fun hc => ?_, fun hsym hend => ?_⟩
  · rw [perform_instr hc, exec_symInstr] at h
    exact Nat.add_left_cancel (hlen.symm.trans (symCommand_q_length h))
  · rw [perform_instr hc] at h
    exact Nat.add_left_cancel (hlen.symm.trans (execEnd_q_length h))
  · simpa [perform_q_of_other h hsym hend] using hq

end Sys2Proof.Proofs

/-! ## The stall after END (R170, R171) -/

namespace Sys2Proof.Proofs

open Sys2Proof.Machine Sys2Proof.Laws

/-- R168, R170: with two beats or more in `Q` nothing is accepted. -/
theorem step_busy {s : State} (hrst : (pins s).rst = false) (hq : 2 ≤ s.q.length) : step s = .next (endCycle s) := by
  have hready : cmdReady s = false := decide_eq_false (by omega)
  have hnone : accepted s = none := by simp [accepted, hready]
  rw [step, hrst, hnone]
  rfl

/-- R169: while more than one beat is queued, each cycle presents the oldest and does nothing else to `Q`. -/
theorem run_busy {n : Nat} :
    ∀ {s : State}, noReset n s → n < s.q.length →
      ∃ t : State, Host.Core.run Sys2Proof.core n s = .next t ∧ t.q = s.q.drop n := by
  induction n with
  | zero => intro s _ _; exact ⟨s, rfl, rfl⟩
  | succ n ih =>
    intro s hreset hq
    obtain ⟨hrst, hlater⟩ := noReset_succ hreset
    obtain ⟨t, hrun, ht⟩ := ih (s := endCycle s) (hlater _ rfl) (by rw [endCycle_q, List.length_tail]; omega)
    refine ⟨t, ?_, ?_⟩
    · rw [run_next (step_busy hrst (by omega)), hrun]
    · rw [ht, endCycle_q, List.drop_tail]

/-- R69, R70: `out_done` tells a Done beat from a Data beat. -/
theorem outDone_iff {s : State} {b : Beat} {rest : List Beat} (hq : s.q = b :: rest) :
    (ports s).outDone = 1#1 ↔ isDone b = true := by
  match b with
  | .data d (.one l0) => simp [(outFields_one hq).outDone, isDone]
  | .data d (.two l0 l1) => simp [(outFields_two hq).outDone, isDone]
  | .done e => simp [(outFields_done hq).outDone, isDone]

/-- R171: the queue of data beats and a last Done, after `j` of them have left. -/
theorem ports_of_closing {t : State} {beats : List Beat} {e : ErrCode} {j : Nat} (hdone : ∀ b ∈ beats, isDone b = false)
    (hj : j ≤ beats.length) (hq : t.q = (beats ++ [Beat.done e]).drop j) :
    ((ports t).cmdReady = true ↔ j = beats.length) ∧ (ports t).outValid = true ∧
      ((ports t).outDone = 1#1 ↔ j = beats.length) := by
  have hready : (ports t).cmdReady = true ↔ t.q.length ≤ 1 := decide_eq_true_iff
  rcases Nat.lt_or_eq_of_le hj with hlt | rfl
  · have hcons : t.q = beats[j] :: (beats ++ [Beat.done e]).drop (j + 1) := by
      rw [hq, List.drop_eq_getElem_cons (by simp; omega), List.getElem_append_left hlt]
    have hlen : t.q.length = beats.length + 1 - j := by simp [hq]
    have hdata : isDone beats[j] = false := hdone _ (List.getElem_mem hlt)
    rw [hready, hlen, outDone_iff hcons, hdata]
    exact ⟨by omega, outValid_cons hcons, by simp; omega⟩
  · have hcons : t.q = Beat.done e :: [] := by rw [hq, List.drop_left]
    rw [hready, outDone_iff hcons]
    exact ⟨by simp [hcons], outValid_cons hcons, by simp [isDone]⟩

/-- Settles O56: END leaves the flushed beats and its Done in an empty `Q`, and the block is busy until the last. -/
theorem endStallsOneCyclePerFlushedSymbol : Obligations.EndStallsOneCyclePerFlushedSymbol := by
  intro s j hinv ha hacc hreset hj
  obtain ⟨k, hk, hdl⟩ := line_encodable (inv_iff_registers.mp hinv).1 ha
  obtain ⟨-, -, -, -, hempty⟩ := accepted_spec hacc
  rw [endCycle_q] at hempty
  obtain ⟨beats, hend, hbeats⟩ := execEnd_active (s := endCycle s) ha hk hdl
  have hlen : beats.length = s.dl.length := hbeats.length
  obtain ⟨-, hlater⟩ := noReset_succ hreset
  have hstep := (step_of_accepted hacc).trans ((perform_instr (decode_encode .endFrame) _).trans hend)
  have hq : (emit (.done .none) (closeFrame (flushed k s.dl beats (endCycle s)))).q = beats ++ [Beat.done .none] := by
    simp [flushed, hempty]
  obtain ⟨t, hrun, ht⟩ := run_busy (n := j) (hlater _ rfl) (by rw [hq]; simp; omega)
  refine ⟨t, (run_next hstep).trans hrun, ?_⟩
  rw [← hlen] at hj ⊢
  exact ports_of_closing hbeats.noDone hj (ht.trans (congrArg _ hq))

end Sys2Proof.Proofs

/-! ## Frames from any state (R95)

START writes every register that the later commands of its frame read, so a frame run from any state is the frame run from
reset, put in the context of that state. -/

namespace Sys2Proof.Proofs

open Sys2Proof.Machine Sys2Proof.Laws

theorem perform_encode (i : Instr) (s : State) : perform (encode i) s = exec i s := perform_instr (decode_encode i) s

theorem perform_symWordOf (d : Symbol) (s : State) : perform (symWordOf d) s = symCommand d s :=
  (perform_encode _ s).trans (exec_symInstr d s)

/-- R20: from registers that meet the invariant every sequence of command words completes. -/
theorem performAll_next (cs : List Word) : ∀ {s : State}, Inv (registers s) → ∃ t, performAll cs s = .next t := by
  induction cs with
  | nil => intro s _; exact ⟨s, rfl⟩
  | cons c cs ih =>
    intro s hs
    obtain ⟨u, hu, hinv⟩ := perform_next c hs
    obtain ⟨t, ht⟩ := ih hinv
    exact ⟨t, by rw [performAll, hu, andThen_next, ht]⟩

/-- R82: of the state before it, a START keeps only the context. -/
theorem execStart_from_reset (m : BitVec 2) (k : BitVec 3) (s : State) :
    execStart m k s = mapNext (inContext s.q s.host s.presented) (execStart m k State.reset) := by
  have hregs : execStart m k (registers s) = execStart m k State.reset := rfl
  have hctx := exec_inContext s.q s.host s.presented (.start m k) (registers s)
  rw [inContext_registers] at hctx
  exact hctx.trans (congrArg _ hregs)

/-- R95: what the words from a START on do from any state. -/
theorem performAll_start_from_reset {m : BitVec 2} {k : BitVec 3} {cs : List Word} {t : State}
    (h : performAll (encode (.start m k) :: cs) State.reset = .next t) (s : State) :
    performAll (encode (.start m k) :: cs) s = .next (inContext s.q s.host s.presented t) := by
  rw [performAll, perform_encode] at h ⊢
  have hstart : exec (.start m k) s = _ := execStart_from_reset m k s
  rw [hstart, andThen_inContext _ _ _ _ (performAll_inContext _ _ _ cs)]
  exact congrArg (mapNext _) h

/-- Settles O50: both frames are the one from reset. -/
theorem frameIsIndependentOfHistory : Obligations.FrameIsIndependentOfHistory := by
  intro s₁ s₂ k m b
  obtain ⟨t, ht⟩ := performAll_next (frameWords k m b) (s := State.reset) inv_reset
  exact ⟨_, _, t.q, performAll_start_from_reset ht s₁, performAll_start_from_reset ht s₂, rfl, rfl, rfl⟩

end Sys2Proof.Proofs

/-! ## Frames that fail (R84, R87, R88, R91) -/

namespace Sys2Proof.Proofs

open Sys2Proof.Machine Sys2Proof.Laws

/-- R85: one symbol and then `n` more. -/
theorem symCnt_add_succ (c : BitVec 16) (n : Nat) : c + BitVec.ofNat 16 (n + 1) = c + 1 + BitVec.ofNat 16 n := by
  rw [BitVec.ofNat_add, BitVec.add_assoc, BitVec.add_comm (BitVec.ofNat 16 n)]
  rfl

/-- R87: the rest of a failed frame only counts. -/
theorem performAll_syms_error (b : List Symbol) :
    ∀ {s : State}, s.fsm = .error →
      performAll (b.map symWordOf) s = .next { s with symCnt := s.symCnt + BitVec.ofNat 16 b.length } := by
  induction b with
  | nil => intro s _; simp [performAll]
  | cons d b ih =>
    intro s hs
    rw [List.map_cons, performAll, perform_symWordOf, symCommand_error hs, andThen_next, ih (s := countSym s) hs,
      List.length_cons, symCnt_add_succ]
    rfl

/-- R87, R91: what follows the error of a frame closes it with that error. -/
theorem performAll_rest_of_failed {s : State} (hs : s.fsm = .error) (b : List Symbol) :
    performAll (b.map symWordOf ++ [encode .endFrame]) s =
      .next { s with
        fsm := .idle, symCnt := s.symCnt + BitVec.ofNat 16 b.length, q := s.q ++ [.done s.errCode] } := by
  rw [performAll_append, performAll_syms_error b hs, andThen_next, performAll, perform_encode]
  exact congrArg (andThen · _) (endInErrorReportsTheError { s with symCnt := s.symCnt + BitVec.ofNat 16 b.length } hs)

/-- Settles O49: the rejected START fails the frame, and the rest of it closes it. -/
theorem frameWithInvalidConfigurationFails : Obligations.FrameWithInvalidConfigurationFails := by
  intro s k m b hcfg
  have hfails : performAll (frameWords k m b) s =
      performAll (b.map symWordOf ++ [encode .endFrame]) (errorEntry .invalidScheme 0 (openFrame m k s)) := by
    rw [frameWords, performAll, perform_encode]
    exact congrArg (andThen · _) (execStart_invalid (validConfig_eq_false hcfg) s)
  exact ⟨_, hfails.trans (performAll_rest_of_failed (errorEntry_fsm _ _ _) b), rfl, rfl, rfl, rfl⟩

/-- R33: a string of symbols is counted, modulo 2^16. -/
theorem performAll_syms_symCnt {b : List Symbol} :
    ∀ {s t : State}, performAll (b.map symWordOf) s = .next t → t.symCnt = s.symCnt + BitVec.ofNat 16 b.length := by
  induction b with
  | nil => intro s t h; cases h; simp
  | cons d b ih =>
    intro s t h
    obtain ⟨u, hu, ht⟩ := andThen_eq_next h
    rw [ih ht, symCommand_symCnt ((perform_symWordOf d s).symm.trans hu), List.length_cons, symCnt_add_succ]

end Sys2Proof.Proofs

/-! ## The beats of a frame so far -/

namespace Sys2Proof.Proofs

open Sys2Proof.Machine Sys2Proof.Laws

theorem levelAfter_append (k : Scheme) (lvl : Bool) (ds es : List Symbol) :
    levelAfter k lvl (ds ++ es) = levelAfter k (levelAfter k lvl ds) es := by
  unfold levelAfter
  split
  · exact List.foldl_append
  · rfl

theorem polarityAfter_append (k : Scheme) (pos : Bool) (ds es : List Symbol) :
    polarityAfter k pos (ds ++ es) = polarityAfter k (polarityAfter k pos ds) es := by
  unfold polarityAfter
  split
  · exact List.foldl_append
  · rfl

/-- R130: `ENCODE_k` of a string goes on from the registers that its first part leaves. -/
theorem encodeFrom_append {k : Scheme} {ds : List Symbol} (es : List Symbol) :
    ∀ {lvl pos : Bool}, (∀ d ∈ ds, Laws.Encodable k d) →
      encodeFrom k (lineLevel lvl) pos (ds ++ es) =
        encodeFrom k (lineLevel lvl) pos ds ++
          encodeFrom k (lineLevel (levelAfter k lvl ds)) (polarityAfter k pos ds) es := by
  induction ds with
  | nil => intro lvl pos _; simp [encodeFrom, levelAfter, polarityAfter]
  | cons d ds ih =>
    intro lvl pos h
    have hd : Laws.Encodable k d := h d List.mem_cons_self
    rw [List.cons_append, encodeFrom_cons k lvl pos d (ds ++ es) hd, ih fun x hx => h x (List.mem_cons_of_mem d hx),
      encodeFrom_cons k lvl pos d ds hd, List.append_assoc, ← levelAfter_cons, ← polarityAfter_cons]

theorem flushBeats_append {k : Scheme} {lvl pos : Bool} {ds es : List Symbol} {bs cs : List Beat}
    (hds : ∀ d ∈ ds, Laws.Encodable k d) (hb : FlushBeats k lvl pos ds bs)
    (hc : FlushBeats k (levelAfter k lvl ds) (polarityAfter k pos ds) es cs) :
    FlushBeats k lvl pos (ds ++ es) (bs ++ cs) where
  noDone b h := (List.mem_append.mp h).elim (hb.noDone b) (hc.noDone b)
  symbols := by rw [List.flatMap_append, hb.symbols, hc.symbols]
  levels := by rw [List.flatMap_append, hb.levels, hc.levels, encodeFrom_append es hds]
  length := by rw [List.length_append, List.length_append, hb.length, hc.length]

theorem flushBeats_singleton {k : Scheme} {lvl pos : Bool} {d : Symbol} {ls : Levels} (hd : Laws.Encodable k d)
    (hl : beatLevels (.data d ls) = encodeFrom k (lineLevel lvl) pos [d]) : FlushBeats k lvl pos [d] [.data d ls] :=
  flushBeats_cons hd hl (flushBeats_nil _ _ _)

/-- In a frame of scheme `k` opened on an empty `Q`, the encoder has encoded the symbols `ds`. -/
structure Sent (k : Scheme) (ds : List Symbol) (t : State) : Prop where
  encodable : ∀ d ∈ ds, Laws.Encodable k d
  encLvl : t.encLvl = levelAfter k false ds
  amiPos : t.amiPos = polarityAfter k false ds
  beats : FlushBeats k false false ds t.q

theorem sent_flushed {k : Scheme} {ds es : List Symbol} {beats : List Beat} {t : State} (h : Sent k ds t)
    (hes : ∀ d ∈ es, Laws.Encodable k d) (hbeats : FlushBeats k t.encLvl t.amiPos es beats) :
    Sent k (ds ++ es) (flushed k es beats t) where
  encodable d hd := (List.mem_append.mp hd).elim (h.encodable d) (hes d)
  encLvl := by rw [levelAfter_append, ← h.encLvl]; rfl
  amiPos := by rw [polarityAfter_append, ← h.amiPos]; rfl
  beats := by
    rw [h.encLvl, h.amiPos] at hbeats
    exact flushBeats_append h.encodable h.beats hbeats

/-- `Sent` reads only the encoder's registers and `Q`. -/
theorem sent_of_scrambler {k : Scheme} {ds : List Symbol} {s t : State} (only : ScramblerOnly s t) (h : Sent k ds s) :
    Sent k ds t :=
  ⟨h.encodable, only.encLvl.trans h.encLvl, only.amiPos.trans h.amiPos, only.q ▸ h.beats⟩

end Sys2Proof.Proofs

/-! ## The scrambler's line follows the reference scan (R113, R114) -/

namespace Sys2Proof.Proofs

open Sys2Proof.Machine Sys2Proof.Laws

/-- One symbol of the scan of a scramble mode (R113, R114); without a scrambler the symbol is kept (R101). -/
def scanStep : ScrMode → Scan → Symbol → Scan
  | .none, v, d => { v with out := v.out ++ [d] }
  | .b8zs, v, d => scanB8zs v d
  | .hdb3, v, d => scanHdb3 v d

theorem scanStep_none_out (b : List Symbol) (v : Scan) : (b.foldl (scanStep .none) v).out = v.out ++ b := by
  induction b generalizing v with
  | nil => simp
  | cons d b ih => rw [List.foldl_cons, ih, scanStep, List.append_assoc]; rfl

theorem scrRef_eq_scan (m : ScrMode) (b : List Symbol) : scrRef m b = (b.foldl (scanStep m) Scan.init).out := by
  cases m with
  | none => exact (scanStep_none_out b Scan.init).symm
  | b8zs | hdb3 => rfl

/-- The scrambler's registers hold the variables of the scan, and its line the scanned symbols after `sent`. -/
structure Scanned (sent : List Symbol) (v : Scan) (t : State) : Prop where
  zeroCnt : v.z = t.zeroCnt.toNat
  lastPol : v.lp = polsym t.lastPol
  onesPar : v.ones % 2 = 1 ↔ t.onesPar = true
  out : v.out = sent ++ t.dl

theorem scanned_init {t : State} (hz : t.zeroCnt = 0) (hp : t.lastPol = false) (ho : t.onesPar = false) (hdl : t.dl = []) :
    Scanned [] Scan.init t :=
  ⟨by rw [hz]; rfl, by rw [hp]; rfl, by rw [ho]; decide, by rw [hdl]; rfl⟩

/-- R102: symbols that leave the line are sent. -/
theorem scanned_pop {sent out l : List Symbol} {v : Scan} {t : State} (h : Scanned sent v t) (hdl : t.dl = out ++ l) :
    Scanned (sent ++ out) v { t with dl := l } :=
  ⟨h.zeroCnt, h.lastPol, h.onesPar, by rw [h.out, hdl, List.append_assoc]⟩

theorem flip_polsym (p : Bool) : Machine.flip (polsym p) = polsym (xor1 p) := by cases p <;> rfl

/-- R103, R106: a scan takes a `1` as a pulse of the other polarity. -/
theorem scanned_out_pulse {sent : List Symbol} {v : Scan} {t : State} (h : Scanned sent v t) :
    v.out ++ [Machine.flip v.lp] = sent ++ (t.dl ++ [polsym (xor1 t.lastPol)]) := by
  rw [h.out, h.lastPol, flip_polsym, List.append_assoc]

theorem scanned_b8zsOne {sent : List Symbol} {v : Scan} {t : State} (h : Scanned sent v t) :
    Scanned sent (scanB8zs v .one) (b8zsOne t) :=
  ⟨rfl, (congrArg Machine.flip h.lastPol).trans (flip_polsym _), h.onesPar, scanned_out_pulse h⟩

theorem scanned_hdb3One {sent : List Symbol} {v : Scan} {t : State} (h : Scanned sent v t) :
    Scanned sent (scanHdb3 v .one) (hdb3One t) where
  zeroCnt := rfl
  lastPol := (congrArg Machine.flip h.lastPol).trans (flip_polsym _)
  onesPar := by
    have hodd : (v.ones + 1) % 2 = 1 ↔ ¬ v.ones % 2 = 1 := by omega
    simpa [scanHdb3, xor1, hodd] using not_congr h.onesPar
  out := scanned_out_pulse h

/-- R104, R107: a zero that does not complete the run is appended. -/
theorem scanned_pushZero {sent : List Symbol} {v : Scan} {t : State} (h : Scanned sent v t)
    (hz : t.zeroCnt.toNat + 1 < 8) : Scanned sent { v with z := v.z + 1, out := v.out ++ [.zero] } (pushZero t) where
  zeroCnt := by
    have hnext : (t.zeroCnt + 1).toNat = t.zeroCnt.toNat + 1 := by
      rw [BitVec.toNat_add]
      exact Nat.mod_eq_of_lt (by simp; omega)
    rw [pushZero_zeroCnt, hnext, h.zeroCnt]
  lastPol := h.lastPol
  onesPar := h.onesPar
  out := by rw [pushZero_dl, h.out, List.append_assoc]

/-- R105, R108, R109: where the zero completes a run of N, the last N symbols of the scan are the line with that zero. -/
theorem scanned_dropLast {n : Nat} {sent : List Symbol} {v : Scan} {t : State} (h : Scanned sent v t)
    (hline : Line n t.zeroCnt.toNat t.dl) (hroom : t.dl.length < n) (hrun : t.zeroCnt.toNat + 1 = n) :
    dropLast n (v.out ++ [.zero]) = sent := by
  have hlen : t.dl.length + 1 = n := by have := hline.run_le; omega
  subst hlen
  simp [dropLast, h.out]

theorem scanned_b8zsZero {sent : List Symbol} {v : Scan} {t : State} (h : Scanned sent v t)
    (hline : Line 8 t.zeroCnt.toNat t.dl) (hroom : t.dl.length < 8) :
    Scanned sent (scanB8zs v .zero) (b8zsZero t) := by
  rw [b8zsZero_cases]
  split <;> rename_i hz
  · have hz7 : t.zeroCnt.toNat = 7 := congrArg BitVec.toNat hz
    have hscan : scanB8zs v .zero = { v with z := 0, out := sent ++ b8zsPattern t.lastPol } := by
      simp only [scanB8zs, h.zeroCnt, hz7, scanned_dropLast h hline hroom (by rw [hz7]), h.lastPol, b8zsPattern]
      cases t.lastPol <;> rfl
    rw [hscan]
    exact ⟨rfl, h.lastPol, h.onesPar, rfl⟩
  · have hz7 : t.zeroCnt.toNat ≠ 7 := fun e => hz (BitVec.eq_of_toNat_eq e)
    have hlt := hline.run_lt
    have hscan : scanB8zs v .zero = { v with z := v.z + 1, out := v.out ++ [.zero] } := by
      simp [scanB8zs, h.zeroCnt, hz7]
    rw [hscan]
    exact scanned_pushZero h (by omega)

/-- R108, R109: the parity of the ones decides the pattern, and its V is the next polarity in both. -/
theorem scanned_hdb3Substitute {sent : List Symbol} {v : Scan} {t : State} (h : Scanned sent v t)
    (hz : t.zeroCnt.toNat = 3) (hdrop : dropLast 4 (v.out ++ [.zero]) = sent) :
    Scanned sent (scanHdb3 v .zero) (hdb3Substitute (pushZero t)) := by
  unfold hdb3Substitute
  split <;> rename_i hpar
  · have hodd : v.ones % 2 = 1 := h.onesPar.mpr hpar
    have hscan : scanHdb3 v .zero = { v with z := 0, ones := 0, out := sent ++ hdb3Odd t.lastPol } := by
      simp [scanHdb3, h.zeroCnt, hz, hodd, hdrop, h.lastPol, hdb3Odd]
    rw [hscan]
    exact ⟨rfl, h.lastPol, by simp, rfl⟩
  · have heven : ¬ v.ones % 2 = 1 := fun e => hpar (h.onesPar.mp e)
    have hscan : scanHdb3 v .zero =
        { z := 0, ones := 0, lp := polsym (xor1 t.lastPol), out := sent ++ hdb3Even (xor1 t.lastPol) } := by
      simp only [scanHdb3, h.zeroCnt, hz, heven, hdrop, h.lastPol, hdb3Even, flip_polsym]
      rfl
    rw [hscan]
    exact ⟨rfl, rfl, by simp, rfl⟩

theorem scanned_hdb3Zero {sent : List Symbol} {v : Scan} {t : State} (h : Scanned sent v t)
    (hline : Line 4 t.zeroCnt.toNat t.dl) (hroom : t.dl.length < 4) :
    Scanned sent (scanHdb3 v .zero) (hdb3Zero t) := by
  rw [hdb3Zero_cases]
  split <;> rename_i hz
  · have hz3 : t.zeroCnt.toNat = 3 := congrArg BitVec.toNat hz
    exact scanned_hdb3Substitute h hz3 (scanned_dropLast h hline hroom (by rw [hz3]))
  · have hz3 : t.zeroCnt.toNat ≠ 3 := fun e => hz (BitVec.eq_of_toNat_eq e)
    have hlt := hline.run_lt
    have hscan : scanHdb3 v .zero = { v with z := v.z + 1, out := v.out ++ [.zero] } := by
      simp [scanHdb3, h.zeroCnt, hz3]
    rw [hscan]
    exact scanned_pushZero h (by omega)

/-- R113, R114: a scrambler update on a line with room is a step of the scan. -/
theorem scanned_scramblerUpdate {m : ScrMode} {d : Symbol} {sent : List Symbol} {v : Scan} {t : State} (hm : m ≠ .none)
    (hd : d = .zero ∨ d = .one) (h : Scanned sent v t) (hline : Line (depth m) t.zeroCnt.toNat t.dl)
    (hroom : t.dl.length < depth m) : Scanned sent (scanStep m v d) (scramblerUpdate m d t) := by
  cases m with
  | none => exact absurd rfl hm
  | b8zs =>
    rcases hd with rfl | rfl
    · exact scanned_b8zsZero h hline hroom
    · exact scanned_b8zsOne h
  | hdb3 =>
    rcases hd with rfl | rfl
    · exact scanned_hdb3Zero h hline hroom
    · exact scanned_hdb3One h

end Sys2Proof.Proofs

/-! ## The frame law (R94)

A frame of valid configuration keeps `InFrame` from its START on: the line holds the last symbols of the reference scan, and
the beats in `Q` are those of the symbols before them. -/

namespace Sys2Proof.Proofs

open Sys2Proof.Machine Sys2Proof.Laws

/-- An open frame, started on an empty `Q`, whose symbols so far have brought the reference scan to `v`. A symbol is sent
only from a line that is full (R102, R165). -/
structure InFrame (k : Scheme) (m : ScrMode) (v : Scan) (t : State) : Prop where
  config : m = .none ∨ k = .ami
  fsm : t.fsm = .active
  scheme : t.scheme = k.code
  scr : t.scr = m.code
  unscrambled : m = .none → t.dl = []
  line : m ≠ .none → Line (depth m) t.zeroCnt.toNat t.dl
  sent : ∃ sent, Scanned sent v t ∧ Sent k sent t ∧ (sent = [] ∨ t.dl.length = depth m)

theorem validConfig_code {k : Scheme} {m : ScrMode} (h : m = .none ∨ k = .ami) : validConfig k.code m.code = true := by
  rcases h with rfl | rfl
  · cases k <;> rfl
  · cases m <;> rfl

/-- R82: START, on an empty `Q`, begins the scan. -/
theorem inFrame_openFrame {k : Scheme} {m : ScrMode} (h : m = .none ∨ k = .ami) :
    InFrame k m Scan.init (openFrame m.code k.code State.reset) where
  config := h
  fsm := rfl
  scheme := rfl
  scr := rfl
  unscrambled _ := rfl
  line hm := line_nil (depth_pos hm)
  sent := by
    refine ⟨[], scanned_init rfl rfl rfl rfl, ⟨by simp, ?_, ?_, flushBeats_nil _ _ _⟩, .inl rfl⟩
    · simp [levelAfter]
    · simp [polarityAfter]

/-- `InFrame` does not read `sym_cnt`. -/
theorem inFrame_countSym {k : Scheme} {m : ScrMode} {v : Scan} {t : State} (h : InFrame k m v t) :
    InFrame k m v (countSym t) := by
  obtain ⟨sent, hscan, hsent, hfull⟩ := h.sent
  exact ⟨h.config, h.fsm, h.scheme, h.scr, h.unscrambled, h.line, sent,
    ⟨hscan.zeroCnt, hscan.lastPol, hscan.onesPar, hscan.out⟩,
    ⟨hsent.encodable, hsent.encLvl, hsent.amiPos, hsent.beats⟩, hfull⟩

/-- R101: without a scrambler an accepted symbol goes straight to the encoder. -/
theorem symCommand_unscrambled {d : Symbol} {s : State} (ha : s.fsm = .active) (hs : s.scr = ScrMode.code .none)
    (hacc : accepts s.scheme s.scr d = true) : symCommand d s = enc d (countSym s) := by
  rw [hs] at hacc
  simp [symCommand, ha, symActive, acceptedSymbol, hs, hacc]

theorem encodable_of_accepts {k : Scheme} {m : ScrMode} {d : Symbol} (h : accepts k.code m.code d = true) :
    Laws.Encodable k d := by
  cases hd : forced d with
  | true => exact .inl (forced_accepted h hd).1
  | false => exact .inr (not_forced hd)

/-- R101: without a scrambler the scan keeps the symbol, and the encoder sends it. -/
theorem inFrame_enc {k : Scheme} {d : Symbol} {v : Scan} {t : State} (h : InFrame k .none v t)
    (hd : Laws.Encodable k d) : ∃ u, enc d t = .next u ∧ InFrame k .none (scanStep .none v d) u := by
  obtain ⟨sent, hscan, hsent, -⟩ := h.sent
  have hdl : t.dl = [] := h.unscrambled rfl
  obtain ⟨ls, henc, hlevels⟩ := enc_next h.scheme hd
  have hout : v.out ++ [d] = sent ++ [d] ++ t.dl := by rw [hscan.out, hdl, List.append_nil, List.append_nil]
  have hsent' : Sent k (sent ++ [d]) (encoded k d ls t) :=
    sent_flushed hsent (by simpa using hd) (flushBeats_singleton hd hlevels)
  exact ⟨encoded k d ls t, henc, h.config, h.fsm, h.scheme, h.scr, h.unscrambled, fun hm => absurd rfl hm,
    sent ++ [d], ⟨hscan.zeroCnt, hscan.lastPol, hscan.onesPar, hout⟩, hsent', .inr (congrArg List.length hdl)⟩

/-- R102: a scrambler step on a line of its mode sends the oldest symbol of a full line, or nothing, and its update works on
the rest. -/
theorem throughLine_sends {m : ScrMode} {s : State} (d : Symbol) (hm : m ≠ .none) (hk : s.scheme = Scheme.code .ami)
    (hline : Line (depth m) s.zeroCnt.toNat s.dl) :
    ∃ out l beats, s.dl = out ++ l ∧ (out = [] ∨ l.length + 1 = depth m) ∧ l.length < depth m ∧
      Line (depth m) s.zeroCnt.toNat l ∧ FlushBeats .ami s.encLvl s.amiPos out beats ∧
      throughLine (depth m) (scramblerUpdate m d) s =
        .next (flushed .ami out beats (scramblerUpdate m d { s with dl := l })) := by
  rcases Nat.lt_or_eq_of_le hline.length_le with hlt | hfull
  · refine ⟨[], s.dl, [], rfl, .inl rfl, hlt, hline, flushBeats_nil _ _ _, ?_⟩
    rw [throughLine_filling hlt (depth_le m)]
    simp [flushed, levelAfter, polarityAfter]
  · cases hs : s.dl with
    | nil => exact absurd ((congrArg List.length hs).symm.trans hfull) (depth_pos hm).ne
    | cons x rest =>
      have hrest : rest.length + 1 = depth m := (congrArg List.length hs).symm.trans hfull
      have only := scramblerUpdate_only m d { s with dl := rest }
      obtain ⟨ls, henc, hlevels⟩ := enc_next (d := x) (only.scheme.trans hk) (.inl rfl)
      rw [only.encLvl, only.amiPos] at hlevels
      refine ⟨[x], rest, [.data x ls], rfl, .inr hrest, by omega, line_pop (hs ▸ hline) hrest,
        flushBeats_singleton (.inl rfl) hlevels, ?_⟩
      rw [throughLine_full hs hrest (depth_le m), henc]
      rfl

/-- R103 to R109: an update appends one symbol; a substitution finds a line with room for one. -/
theorem scramblerUpdate_dl_length {m : ScrMode} {d : Symbol} {s : State} (hm : m ≠ .none) (hd : d = .zero ∨ d = .one)
    (hline : Line (depth m) s.zeroCnt.toNat s.dl) (hroom : s.dl.length < depth m) :
    (scramblerUpdate m d s).dl.length = s.dl.length + 1 := by
  have hrun : s.zeroCnt.toNat + 1 = depth m → s.dl.length + 1 = depth m := by have := hline.run_le; omega
  cases m with
  | none => exact absurd rfl hm
  | b8zs =>
    rcases hd with rfl | rfl
    · simp only [scramblerUpdate, b8zsZero_cases]
      split <;> rename_i hz
      · rw [hrun (by rw [hz]; rfl), b8zsSubstitute_dl]
        cases (pushZero s).lastPol <;> rfl
      · simp
    · simp [scramblerUpdate]
  | hdb3 =>
    rcases hd with rfl | rfl
    · simp only [scramblerUpdate, hdb3Zero_cases]
      split <;> rename_i hz
      · rw [hrun (by rw [hz]; rfl), hdb3Substitute]
        split <;> rfl
      · simp
    · simp [scramblerUpdate]

/-- R102, R113, R114: a scrambler step is a step of the scan. -/
theorem inFrame_throughLine {k : Scheme} {m : ScrMode} {d : Symbol} {v : Scan} {t : State} (h : InFrame k m v t)
    (hm : m ≠ .none) (hd : d = .zero ∨ d = .one) :
    ∃ u, throughLine (depth m) (scramblerUpdate m d) t = .next u ∧ InFrame k m (scanStep m v d) u := by
  obtain rfl : k = .ami := h.config.resolve_left hm
  obtain ⟨sent, hscan, hsent, hfull⟩ := h.sent
  obtain ⟨out, l, beats, hdl, hout, hroom, hline, hbeats, hthrough⟩ := throughLine_sends d hm h.scheme (h.line hm)
  have only := scramblerUpdate_only m d { t with dl := l }
  have hline' := line_update (s := { t with dl := l }) hm hd hline hroom
  have hlen := scramblerUpdate_dl_length (s := { t with dl := l }) hm hd hline hroom
  have hscan' := scanned_scramblerUpdate hm hd (scanned_pop hscan hdl) hline hroom
  have hsent' : Sent .ami sent (scramblerUpdate m d { t with dl := l }) :=
    sent_of_scrambler only ⟨hsent.encodable, hsent.encLvl, hsent.amiPos, hsent.beats⟩
  have hfull' : sent ++ out = [] ∨ (scramblerUpdate m d { t with dl := l }).dl.length = depth m := by
    rcases hout with rfl | hrest
    · have hshort : t.dl.length ≠ depth m := by rw [hdl]; exact hroom.ne
      exact .inl (by simpa using hfull.resolve_right hshort)
    · exact .inr (hlen.trans hrest)
  refine ⟨_, hthrough, ?_⟩
  exact
    { config := h.config
      fsm := only.fsm.trans h.fsm
      scheme := only.scheme.trans h.scheme
      scr := only.scr.trans h.scr
      unscrambled := fun e => absurd e hm
      line := fun _ => hline'
      sent := ⟨sent ++ out, ⟨hscan'.zeroCnt, hscan'.lastPol, hscan'.onesPar, hscan'.out⟩,
        sent_flushed hsent' (fun _ _ => .inl rfl) (by rw [only.encLvl, only.amiPos]; exact hbeats), hfull'⟩ }

/-- R94: an accepted symbol is one step of the reference scan. -/
theorem inFrame_symCommand {k : Scheme} {m : ScrMode} {d : Symbol} {v : Scan} {t : State} (h : InFrame k m v t)
    (hacc : accepts k.code m.code d = true) : ∃ u, symCommand d t = .next u ∧ InFrame k m (scanStep m v d) u := by
  by_cases hm : m = .none
  · subst hm
    rw [symCommand_unscrambled h.fsm h.scr (by rw [h.scheme, h.scr, hacc])]
    exact inFrame_enc (inFrame_countSym h) (encodable_of_accepts hacc)
  · have hd : d = .zero ∨ d = .one :=
      not_forced (Bool.eq_false_iff.mpr fun hforced => hm (forced_accepted hacc hforced).2)
    rw [symCommand_scrambled h.fsm hm h.scr hd]
    exact inFrame_throughLine (inFrame_countSym h) hm hd

theorem inFrame_performAll {k : Scheme} {m : ScrMode} {b : List Symbol} :
    ∀ {v : Scan} {t : State}, InFrame k m v t → (∀ d ∈ b, accepts k.code m.code d = true) →
      ∃ u, performAll (b.map symWordOf) t = .next u ∧ InFrame k m (b.foldl (scanStep m) v) u := by
  induction b with
  | nil => intro v t h _; exact ⟨t, rfl, h⟩
  | cons d b ih =>
    intro v t h hacc
    obtain ⟨w, hw, hframe⟩ := inFrame_symCommand h (hacc d List.mem_cons_self)
    obtain ⟨u, hu, hframe'⟩ := ih hframe fun x hx => hacc x (List.mem_cons_of_mem d hx)
    refine ⟨u, ?_, hframe'⟩
    rw [List.map_cons, performAll, perform_symWordOf, hw, andThen_next, hu]

/-- R82, R94: an open frame after its START and a string of symbols, from reset. -/
theorem inFrame_of_start {k : Scheme} {m : ScrMode} {b : List Symbol} (hkm : m = .none ∨ k = .ami)
    (hacc : ∀ d ∈ b, accepts k.code m.code d = true) :
    ∃ u, performAll (encode (.start m.code k.code) :: b.map symWordOf) State.reset = .next u ∧
      u.symCnt = BitVec.ofNat 16 b.length ∧ InFrame k m (b.foldl (scanStep m) Scan.init) u := by
  have hstart : exec (.start m.code k.code) State.reset = .next (openFrame m.code k.code State.reset) :=
    execStart_valid (validConfig_code hkm) State.reset
  obtain ⟨u, hu, hframe⟩ := inFrame_performAll (inFrame_openFrame hkm) hacc
  refine ⟨u, ?_, ?_, hframe⟩
  · rw [performAll, perform_encode, hstart, andThen_next, hu]
  · rw [performAll_syms_symCnt hu]
    exact BitVec.zero_add _

/-- R90: END sends the rest of the scan. -/
theorem inFrame_execEnd {k : Scheme} {m : ScrMode} {v : Scan} {t : State} (h : InFrame k m v t) :
    ∃ u beats, execEnd t = .next u ∧ u.fsm = .idle ∧ u.q = beats ++ [.done .none] ∧
      FlushBeats k false false v.out beats := by
  obtain ⟨sent, hscan, hsent, -⟩ := h.sent
  have hdl : ∀ d ∈ t.dl, Laws.Encodable k d := by
    intro d hd
    rcases h.config with hm | hk
    · rw [h.unscrambled hm] at hd
      exact absurd hd List.not_mem_nil
    · exact .inl hk
  obtain ⟨beats, hend, hbeats⟩ := execEnd_active h.fsm h.scheme hdl
  exact ⟨_, t.q ++ beats, hend, rfl, rfl, hscan.out ▸ (sent_flushed hsent hdl hbeats).beats⟩

theorem frameWords_eq (k : BitVec 3) (m : BitVec 2) (b rest : List Symbol) :
    frameWords k m (b ++ rest) =
      (encode (.start m k) :: b.map symWordOf) ++ (rest.map symWordOf ++ [encode .endFrame]) := by
  simp [frameWords]

/-- R93: the Done beat decides the result of a frame. -/
theorem frameResult_success (beats : List Beat) :
    frameResult (beats ++ [.done .none]) = some (.success (beats.flatMap beatLevels) (beats.flatMap beatSymbols)) := by
  simp [frameResult, beatLevels, beatSymbols]

theorem frameResult_invalidSymbol (beats : List Beat) :
    frameResult (beats ++ [.done .invalidSymbol]) = some (.failure .invalidSymbol) := by
  simp [frameResult]

/-- R88: a valid configuration accepts every string over its alphabet. -/
theorem accepts_of_binary {k : BitVec 3} {m : BitVec 2} {b : List Symbol} (hb : Binary b) :
    ∀ d ∈ b, accepts k m d = true :=
  fun d hd => (accepts_iff k m d).mpr ((hb d hd).imp_right .inl)

/-- Settles O47: after its symbols the frame from reset has brought the scan to the scrambled string, which END completes. -/
theorem frameComputesTheReference : Obligations.FrameComputesTheReference := by
  intro s k m b hkm hb
  have hacc : ∀ d ∈ b, accepts k.code m.code d = true := by
    rcases hb with hbin | ⟨rfl, rfl⟩
    · exact accepts_of_binary hbin
    · exact fun d _ => (accepts_iff _ _ d).mpr (.inr (.inr ⟨rfl, rfl⟩))
  obtain ⟨u, hu, -, hframe⟩ := inFrame_of_start hkm hacc
  obtain ⟨t, beats, hend, hfsm, hq, hbeats⟩ := inFrame_execEnd hframe
  have hwords : performAll (frameWords k.code m.code b) State.reset = .next t := by
    rw [← List.append_nil b, frameWords_eq, performAll_append, hu, andThen_next]
    exact congrArg (andThen · _) ((perform_encode .endFrame u).trans hend)
  refine ⟨_, t.q, performAll_start_from_reset hwords s, rfl, hfsm, ?_⟩
  rw [hq, frameResult_success, hbeats.levels, hbeats.symbols, ← scrRef_eq_scan]
  rfl

/-- Settles O48: the symbols before the forced pulse are counted, and what follows it only closes the frame. -/
theorem frameFailsAtFirstForcedPulse : Obligations.FrameFailsAtFirstForcedPulse := by
  intro s k m b rest d hkm hplain hb hd
  obtain ⟨u, hu, hcount, hframe⟩ := inFrame_of_start hkm (accepts_of_binary hb)
  have hrej : accepts u.scheme u.scr d = false := by
    rw [hframe.scheme, hframe.scr]
    refine Bool.eq_false_iff.mpr fun hacc => hplain (forced_accepted hacc ?_)
    rcases hd with rfl | rfl <;> rfl
  have hfails : performAll (frameWords k.code m.code (b ++ d :: rest)) State.reset =
      performAll (rest.map symWordOf ++ [encode .endFrame]) (errorEntry .invalidSymbol u.symCnt (countSym u)) := by
    rw [frameWords_eq, performAll_append, hu, andThen_next, List.map_cons, List.cons_append, performAll,
      perform_symWordOf, symCommand_rejected hframe.fsm hrej, andThen_next]
  have hwords := hfails.trans (performAll_rest_of_failed (errorEntry_fsm _ _ _) rest)
  exact ⟨_, _, performAll_start_from_reset hwords s, rfl, rfl, frameResult_invalidSymbol u.q, hcount⟩

end Sys2Proof.Proofs

/-! PROOFS of the statements about the scrambler (spec/41_scrambler.md): one symbol through the delay line, the
substitutions, and the scrambled string as a whole. -/

/-! ## One symbol through the delay line (R102) -/

namespace Sys2Proof.Proofs

open Sys2Proof.Machine Sys2Proof.Laws

/-- R102, R125 to R128: the state after AMI has encoded the symbol that left the line, if one did. -/
def sendAmi : Option Symbol → State → State
  | none, s => s
  | some d, s => { s with amiPos := amiAfter d s.amiPos, q := s.q ++ [amiBeat d s.amiPos] }

@[simp] theorem sendAmi_fsm (o : Option Symbol) (s : State) : (sendAmi o s).fsm = s.fsm := by cases o <;> rfl
@[simp] theorem sendAmi_scheme (o : Option Symbol) (s : State) : (sendAmi o s).scheme = s.scheme := by cases o <;> rfl
@[simp] theorem sendAmi_scr (o : Option Symbol) (s : State) : (sendAmi o s).scr = s.scr := by cases o <;> rfl
@[simp] theorem sendAmi_lastPol (o : Option Symbol) (s : State) : (sendAmi o s).lastPol = s.lastPol := by cases o <;> rfl
@[simp] theorem sendAmi_zeroCnt (o : Option Symbol) (s : State) : (sendAmi o s).zeroCnt = s.zeroCnt := by cases o <;> rfl
@[simp] theorem sendAmi_dl (o : Option Symbol) (s : State) : (sendAmi o s).dl = s.dl := by cases o <;> rfl

theorem encPopped_ami (o : Option Symbol) {s : State} (hk : s.scheme = Scheme.code .ami) :
    encPopped o s = .next (sendAmi o s) := by
  cases o with
  | none => rfl
  | some d => exact enc_ami d hk

theorem afterPop_dl_length_lt {n : Nat} {s : State} (hn : 0 < n) (hle : s.dl.length ≤ n) :
    (afterPop n s).dl.length < n := by
  rw [afterPop_dl]
  split
  · rw [List.length_tail]; omega
  · omega

section

variable {m : ScrMode} {d : Symbol} {s t : State} (ha : s.fsm = .active) (hm : m ≠ .none) (hs : s.scr = m.code)
  (hd : d = .zero ∨ d = .one)
include ha hm hs hd

/-- R102: no symbol leaves a line that is not full. -/
theorem symCommand_filling (hlt : s.dl.length < depth m) (ht : scramblerUpdate m d (countSym s) = t) :
    symCommand d s = .next t := by
  rw [symCommand_scrambled ha hm hs hd, throughLine_filling (s := countSym s) hlt (depth_le m), ht]

/-- R102: the oldest symbol leaves a full line. -/
theorem symCommand_full (hk : s.scheme = Scheme.code .ami) {x : Symbol} {rest : List Symbol} (hdl : s.dl = x :: rest)
    (hrest : rest.length + 1 = depth m) (ht : scramblerUpdate m d { countSym s with dl := rest } = t) :
    symCommand d s = .next (sendAmi (some x) t) := by
  have hscheme : t.scheme = Scheme.code .ami := ht ▸ (scramblerUpdate_only m d _).scheme.trans hk
  rw [symCommand_scrambled ha hm hs hd, throughLine_full (s := countSym s) hdl hrest (depth_le m), ht]
  exact enc_ami x hscheme

/-- R102: a symbol through a line that holds no more than its depth. -/
theorem symCommand_line (hk : s.scheme = Scheme.code .ami) (hle : s.dl.length ≤ depth m)
    (ht : scramblerUpdate m d (afterPop (depth m) (countSym s)) = t) :
    symCommand d s = .next (sendAmi (popped (depth m) s.dl) t) := by
  have hscheme : t.scheme = Scheme.code .ami := ht ▸ (scramblerUpdate_only m d _).scheme.trans hk
  have hroom : (afterPop (depth m) (countSym s)).dl.length < Config.dlDepth :=
    (afterPop_dl_length_lt (s := countSym s) (depth_pos hm) hle).trans_le (depth_le m)
  rw [symCommand_scrambled ha hm hs hd, throughLine, if_pos hroom, ht]
  exact encPopped_ami _ hscheme

end

/-! ### The updates (R103 to R109), in the terms of the registers -/

/-- R10: the symbol of the other polarity. -/
theorem polsym_xor1 (p : Bool) : polsym (xor1 p) = if p then .minus else .plus := by cases p <;> rfl

theorem b8zsOne_eq (s : State) :
    b8zsOne s =
      { s with zeroCnt := 0, lastPol := !s.lastPol, dl := s.dl ++ [if s.lastPol then .minus else .plus] } := by
  rw [b8zsOne, polsym_xor1]
  rfl

theorem b8zsZero_short {s : State} (hz : s.zeroCnt ≠ 7) : b8zsZero s = pushZero s := by
  rw [b8zsZero_cases, if_neg hz]

theorem b8zsZero_completes {s : State} (hz : s.zeroCnt = 7) :
    b8zsZero s = { s with zeroCnt := 0, dl := b8zsPattern s.lastPol } := by
  rw [b8zsZero_cases, if_pos hz]
  rfl

theorem hdb3One_eq (s : State) :
    hdb3One s =
      { s with
        zeroCnt := 0, lastPol := !s.lastPol, onesPar := !s.onesPar
        dl := s.dl ++ [if s.lastPol then .minus else .plus] } := by
  rw [hdb3One, polsym_xor1]
  rfl

theorem hdb3Zero_short {s : State} (hz : s.zeroCnt ≠ 3) : hdb3Zero s = pushZero s := by
  rw [hdb3Zero_cases, if_neg hz]

theorem hdb3Zero_completes_odd {s : State} (hz : s.zeroCnt = 3) (hpar : s.onesPar = true) :
    hdb3Zero s = { s with zeroCnt := 0, onesPar := false, dl := hdb3Odd s.lastPol } := by
  rw [hdb3Zero_cases, if_pos hz]
  exact if_pos hpar

theorem hdb3Zero_completes_even {s : State} (hz : s.zeroCnt = 3) (hpar : s.onesPar = false) :
    hdb3Zero s =
      { s with
        zeroCnt := 0, onesPar := false, lastPol := !s.lastPol
        dl := [if s.lastPol then .minus else .plus, .zero, .zero, if s.lastPol then .minus else .plus] } := by
  have hsub : hdb3Substitute (pushZero s) = _ := if_neg (Bool.eq_false_iff.mp hpar)
  rw [hdb3Zero_cases, if_pos hz, hsub, ← polsym_xor1]
  rfl

end Sys2Proof.Proofs

/-! ## B8ZS, one symbol (R103 to R105) -/

namespace Sys2Proof.Proofs

open Sys2Proof.Machine Sys2Proof.Laws

/-- Settles O25: the line fills, or is full. -/
theorem symB8zsOne : Obligations.SymB8zsOne := by
  intro s ha hk hs
  have hm : ScrMode.b8zs ≠ .none := by decide
  exact
    ⟨fun hlt => symCommand_filling ha hm hs (.inr rfl) hlt (b8zsOne_eq _),
      fun d rest hdl hrest => symCommand_full ha hm hs (.inr rfl) hk hdl (congrArg (· + 1) hrest) (b8zsOne_eq _)⟩

/-- Settles O26: each of a line that fills and a full one, for a zero that leaves the run short and one that completes
it. -/
theorem symB8zsZero : Obligations.SymB8zsZero := by
  intro s ha hk hs
  have hm : ScrMode.b8zs ≠ .none := by decide
  refine ⟨fun hlt hz => ?_, fun hlt hz => ?_, fun d rest hdl hrest hz => ?_, fun d rest hdl hrest hz => ?_⟩
  · exact symCommand_filling ha hm hs (.inl rfl) hlt (b8zsZero_short hz)
  · exact symCommand_filling ha hm hs (.inl rfl) hlt (b8zsZero_completes hz)
  · exact symCommand_full ha hm hs (.inl rfl) hk hdl (congrArg (· + 1) hrest) (b8zsZero_short hz)
  · exact symCommand_full ha hm hs (.inl rfl) hk hdl (congrArg (· + 1) hrest) (b8zsZero_completes hz)

end Sys2Proof.Proofs

/-! ## HDB3, one symbol (R106 to R109) -/

namespace Sys2Proof.Proofs

open Sys2Proof.Machine Sys2Proof.Laws

/-- Settles O27: the line fills, or is full. -/
theorem symHdb3One : Obligations.SymHdb3One := by
  intro s ha hk hs
  have hm : ScrMode.hdb3 ≠ .none := by decide
  exact
    ⟨fun hlt => symCommand_filling ha hm hs (.inr rfl) hlt (hdb3One_eq _),
      fun d rest hdl hrest => symCommand_full ha hm hs (.inr rfl) hk hdl (congrArg (· + 1) hrest) (hdb3One_eq _)⟩

/-- Settles O28: the line fills, or is full. -/
theorem symHdb3ZeroInShortRun : Obligations.SymHdb3ZeroInShortRun := by
  intro s ha hk hs hz
  have hm : ScrMode.hdb3 ≠ .none := by decide
  exact
    ⟨fun hlt => symCommand_filling ha hm hs (.inl rfl) hlt (hdb3Zero_short hz),
      fun d rest hdl hrest =>
        symCommand_full ha hm hs (.inl rfl) hk hdl (congrArg (· + 1) hrest) (hdb3Zero_short hz)⟩

/-- Settles O29: each of a line that fills and a full one, at odd and at even parity. -/
theorem symHdb3Substitutes : Obligations.SymHdb3Substitutes := by
  intro s ha hk hs hz
  have hm : ScrMode.hdb3 ≠ .none := by decide
  refine ⟨fun hlt hpar => ?_, fun hlt hpar => ?_, fun d rest hdl hrest hpar => ?_, fun d rest hdl hrest hpar => ?_⟩
  · exact symCommand_filling ha hm hs (.inl rfl) hlt (hdb3Zero_completes_odd hz hpar)
  · exact symCommand_filling ha hm hs (.inl rfl) hlt (hdb3Zero_completes_even hz hpar)
  · exact symCommand_full ha hm hs (.inl rfl) hk hdl (congrArg (· + 1) hrest) (hdb3Zero_completes_odd hz hpar)
  · exact symCommand_full ha hm hs (.inl rfl) hk hdl (congrArg (· + 1) hrest) (hdb3Zero_completes_even hz hpar)

end Sys2Proof.Proofs

/-! ## After a B8ZS substitution (R116) -/

namespace Sys2Proof.Proofs

open Sys2Proof.Machine Sys2Proof.Laws

/-- An open B8ZS frame at polarity `p`, its line no longer than its depth. -/
structure B8zsFrame (p : Bool) (s : State) : Prop where
  fsm : s.fsm = .active
  scheme : s.scheme = Scheme.code .ami
  scr : s.scr = ScrMode.code .b8zs
  lastPol : s.lastPol = p
  room : s.dl.length ≤ depth .b8zs

theorem b8zsFrame_sym {p : Bool} {d : Symbol} {s t : State} (h : B8zsFrame p s) (hd : d = .zero ∨ d = .one)
    (ht : scramblerUpdate .b8zs d (afterPop (depth .b8zs) (countSym s)) = t) :
    symCommand d s = .next (sendAmi (popped (depth .b8zs) s.dl) t) :=
  symCommand_line h.fsm (by decide) h.scr hd h.scheme h.room ht

theorem b8zsZero_lastPol (s : State) : (b8zsZero s).lastPol = s.lastPol := by
  rw [b8zsZero_cases]
  split <;> rfl

theorem b8zsZero_dl_length_le {s : State} (hroom : s.dl.length < depth .b8zs) :
    (b8zsZero s).dl.length ≤ depth .b8zs := by
  by_cases hz : s.zeroCnt = 7
  · rw [b8zsZero_completes hz, b8zsPattern]
    split <;> exact Nat.le_refl 8
  · rw [b8zsZero_short hz, pushZero_dl, List.length_append]
    exact hroom

/-- R104, R105: a zero keeps the polarity, substituted or not. -/
theorem b8zsFrame_zero {p : Bool} {s : State} (h : B8zsFrame p s) (o : Option Symbol) :
    B8zsFrame p (sendAmi o (b8zsZero (afterPop (depth .b8zs) (countSym s)))) := by
  have only := b8zsZero_only (afterPop (depth .b8zs) (countSym s))
  have hroom := afterPop_dl_length_lt (s := countSym s) (depth_pos (m := .b8zs) (by decide)) h.room
  exact
    { fsm := (sendAmi_fsm _ _).trans (only.fsm.trans h.fsm)
      scheme := (sendAmi_scheme _ _).trans (only.scheme.trans h.scheme)
      scr := (sendAmi_scr _ _).trans (only.scr.trans h.scr)
      lastPol := (sendAmi_lastPol _ _).trans ((b8zsZero_lastPol _).trans h.lastPol)
      room := by rw [sendAmi_dl]; exact b8zsZero_dl_length_le hroom }

theorem b8zsFrame_zeros {p : Bool} (n : Nat) :
    ∀ {s : State}, B8zsFrame p s →
      ∃ t, performAll (List.replicate n (symWordOf .zero)) s = .next t ∧ B8zsFrame p t := by
  induction n with
  | zero => intro s h; exact ⟨s, rfl, h⟩
  | succ n ih =>
    intro s h
    obtain ⟨t, hzeros, ht⟩ := ih (b8zsFrame_zero h _)
    refine ⟨t, ?_, ht⟩
    rw [List.replicate_succ, performAll, perform_symWordOf, b8zsFrame_sym h (.inl rfl) rfl, andThen_next]
    exact hzeros

/-- R103: a `1` is a pulse of the other polarity. -/
theorem b8zsFrame_one {p : Bool} {s : State} (h : B8zsFrame p s) :
    ∃ t, symCommand .one s = .next t ∧ t.dl.getLast? = some (polsym (xor1 p)) := by
  refine ⟨_, b8zsFrame_sym h (.inr rfl) (t := b8zsOne _) rfl, ?_⟩
  simp [h.lastPol]

/-- R105, R116: a pattern ends in the pulse that the next `1` takes. -/
theorem b8zsPattern_getLast? (p : Bool) : (b8zsPattern p).getLast? = some (polsym (xor1 p)) := by cases p <;> rfl

/-- Settles O30: neither the pattern nor a zero writes the polarity, so the next `1` inverts the one before the
pattern. -/
theorem oneAfterB8zsPatternRepeatsItsLastPulse : Obligations.OneAfterB8zsPatternRepeatsItsLastPulse := by
  intro s n ha hk hs hroom hz
  have h : B8zsFrame s.lastPol s := ⟨ha, hk, hs, rfl, hroom⟩
  obtain ⟨v, hzeros, hv⟩ := b8zsFrame_zeros n (b8zsFrame_zero h (popped (depth .b8zs) s.dl))
  obtain ⟨u, hone, hu⟩ := b8zsFrame_one hv
  refine ⟨_, u, polsym (xor1 s.lastPol), b8zsFrame_sym h (.inl rfl) (t := b8zsZero _) rfl, ?_, ?_, hu, polsym_xor1 _⟩
  · rw [sendAmi_dl, b8zsZero_completes (s := afterPop _ (countSym s)) hz]
    exact b8zsPattern_getLast? s.lastPol
  · rw [performAll_append, hzeros, andThen_next, performAll, perform_symWordOf, hone]
    rfl

end Sys2Proof.Proofs

/-! ## A substitution replaces exactly the zero run (R115) -/

namespace Sys2Proof.Proofs

open Sys2Proof.Machine Sys2Proof.Laws

/-- R102, R115: the oldest symbol of a full line leaves before the zero that completes the run arrives; what stays is the
rest of the run. -/
theorem afterPop_dl_eq_run {n z : Nat} {s : State} (h : Line n z s.dl) (hrun : z + 1 = n) :
    (afterPop n s).dl = List.replicate z .zero := by
  have hroom : (afterPop n s).dl.length < n := afterPop_dl_length_lt (by omega) h.length_le
  have hline : Line n z (afterPop n s).dl := by
    rw [afterPop_dl]
    split <;> rename_i hfull
    · cases hs : s.dl with
      | nil => simpa [hs] using h
      | cons x rest => exact line_pop (hs ▸ h) (by rw [← hfull, hs]; rfl)
    · exact h
  have hall : (afterPop n s).dl.length - z = 0 := by have := hline.run_le; omega
  have hdrop := hline.run
  rwa [hall, List.drop_zero] at hdrop

/-- R67: every scrambled configuration is AMI. -/
theorem ami_of_scrambled {m : ScrMode} (hm : m ≠ .none) {k : BitVec 3} (h : validConfig k m.code = true) :
    k = Scheme.code .ami := by
  cases m with
  | none => exact absurd rfl hm
  | b8zs | hdb3 => revert k; decide

/-- R89, R102: SYM 0 in an ACTIVE scrambled frame with the invariant is answered with the update of the line, which the
encoder step leaves as it is. -/
theorem symCommand_zero_of_inv {m : ScrMode} {s u : State} (h : Inv s) (ha : s.fsm = .active) (hm : m ≠ .none)
    (hs : s.scr = m.code) (hu : scramblerUpdate m .zero (afterPop (depth m) (countSym s)) = u) :
    ∃ t, symCommand .zero s = .next t ∧ t.zeroCnt = u.zeroCnt ∧ t.dl = u.dl := by
  have hk : s.scheme = Scheme.code .ami := ami_of_scrambled hm (hs ▸ h.config ha)
  have hline := line_of_inv (inv_iff_registers.mp h).1 ha hm hs
  exact ⟨_, symCommand_line ha hm hs (.inl rfl) hk hline.length_le hu, sendAmi_zeroCnt _ _, sendAmi_dl _ _⟩

/-- Settles O46: the line has the run by the invariant, and the completing zero is the substitution of O26 and O29. -/
theorem substitutionReplacesExactlyTheRun : Obligations.SubstitutionReplacesExactlyTheRun := by
  intro s h ha
  have hregs := (inv_iff_registers.mp h).1
  refine ⟨fun hs hz => ?_, fun hs hz => ?_⟩
  · have hm : ScrMode.b8zs ≠ .none := by decide
    have hline : Line 8 s.zeroCnt.toNat s.dl := line_of_inv hregs ha hm hs
    rw [hz] at hline
    exact ⟨afterPop_dl_eq_run hline rfl, symCommand_zero_of_inv h ha hm hs (b8zsZero_completes hz)⟩
  · have hm : ScrMode.hdb3 ≠ .none := by decide
    have hline : Line 4 s.zeroCnt.toNat s.dl := line_of_inv hregs ha hm hs
    rw [hz] at hline
    refine ⟨afterPop_dl_eq_run hline rfl, ?_⟩
    cases hpar : s.onesPar with
    | true => exact symCommand_zero_of_inv h ha hm hs (hdb3Zero_completes_odd hz hpar)
    | false => exact symCommand_zero_of_inv h ha hm hs (hdb3Zero_completes_even hz hpar)

end Sys2Proof.Proofs

/-! ## The scrambled string (R111 to R114) -/

namespace Sys2Proof.Proofs

open Sys2Proof.Machine Sys2Proof.Laws

/-- The polarity of a scan is a pulse, and its output holds the run counted so far and no `1`. -/
structure ScanOk (v : Scan) : Prop where
  run_le : v.z ≤ v.out.length
  lp_ne_one : v.lp ≠ .one
  no_one : Symbol.one ∉ v.out

theorem scanOk_init : ScanOk Scan.init := ⟨Nat.le_refl 0, by decide, List.not_mem_nil⟩

theorem flip_ne_one (lp : Symbol) : Machine.flip lp ≠ .one := by
  unfold Machine.flip
  split <;> decide

section

variable {v w : Scan} (h : ScanOk v) (hlp : w.lp ≠ .one)
include h hlp

/-- R113, R114: a scan step that appends a pulse or a zero. -/
theorem scanOk_append {x : Symbol} (hout : w.out = v.out ++ [x]) (hx : x ≠ .one) (hz : w.z ≤ v.z + 1) :
    ScanOk w ∧ w.out.length = v.out.length + 1 := by
  have hlen : w.out.length = v.out.length + 1 := by rw [hout, List.length_append]; rfl
  have hrun := h.run_le
  exact ⟨⟨by omega, hlp, by simpa [hout] using ⟨h.no_one, hx.symm⟩⟩, hlen⟩

/-- R113, R114: a scan step that puts a pattern of length `n` in the place of the run it completes. -/
theorem scanOk_substitute {n : Nat} {pattern : List Symbol} (hrun : v.z + 1 = n)
    (hout : w.out = dropLast n (v.out ++ [.zero]) ++ pattern) (hpattern : pattern.length = n)
    (hone : Symbol.one ∉ pattern) (hz : w.z = 0) : ScanOk w ∧ w.out.length = v.out.length + 1 := by
  have hle := h.run_le
  have hlen : w.out.length = v.out.length + 1 := by
    rw [hout, dropLast, List.length_append, List.length_take, List.length_append, List.length_singleton]
    omega
  have hkept : Symbol.one ∉ dropLast n (v.out ++ [.zero]) := fun hmem =>
    h.no_one (by simpa using List.mem_of_mem_take hmem)
  exact ⟨⟨by omega, hlp, by rw [hout, List.mem_append]; exact not_or.mpr ⟨hkept, hone⟩⟩, hlen⟩

end

theorem scanB8zs_ok {v : Scan} (h : ScanOk v) (d : Symbol) :
    ScanOk (scanB8zs v d) ∧ (scanB8zs v d).out.length = v.out.length + 1 := by
  unfold scanB8zs
  split
  · exact scanOk_append h (flip_ne_one _) rfl (flip_ne_one _) (Nat.zero_le _)
  · split <;> rename_i hrun
    · exact scanOk_substitute h h.lp_ne_one hrun rfl (by split <;> rfl) (by split <;> decide) rfl
    · exact scanOk_append h h.lp_ne_one rfl (by decide) (Nat.le_refl _)

theorem scanHdb3_ok {v : Scan} (h : ScanOk v) (d : Symbol) :
    ScanOk (scanHdb3 v d) ∧ (scanHdb3 v d).out.length = v.out.length + 1 := by
  unfold scanHdb3
  split
  · exact scanOk_append h (flip_ne_one _) rfl (flip_ne_one _) (Nat.zero_le _)
  · split <;> rename_i hrun
    · split
      · exact scanOk_substitute h h.lp_ne_one hrun rfl rfl (by simpa using h.lp_ne_one.symm) rfl
      · exact scanOk_substitute h (flip_ne_one _) hrun rfl rfl (by simpa using (flip_ne_one _).symm) rfl
    · exact scanOk_append h h.lp_ne_one rfl (by decide) (Nat.le_refl _)

theorem scanStep_ok {m : ScrMode} (hm : m ≠ .none) {v : Scan} (h : ScanOk v) (d : Symbol) :
    ScanOk (scanStep m v d) ∧ (scanStep m v d).out.length = v.out.length + 1 := by
  cases m with
  | none => exact absurd rfl hm
  | b8zs => exact scanB8zs_ok h d
  | hdb3 => exact scanHdb3_ok h d

theorem scan_ok {m : ScrMode} (hm : m ≠ .none) (b : List Symbol) :
    ∀ {v : Scan}, ScanOk v →
      ScanOk (b.foldl (scanStep m) v) ∧ (b.foldl (scanStep m) v).out.length = v.out.length + b.length := by
  induction b with
  | nil => intro v h; exact ⟨h, rfl⟩
  | cons d b ih =>
    intro v h
    obtain ⟨hstep, hlen⟩ := scanStep_ok hm h d
    obtain ⟨hscan, hlen'⟩ := ih hstep
    exact ⟨hscan, by rw [List.foldl_cons, hlen', hlen, List.length_cons]; omega⟩

/-- R111, R112: a scrambler keeps the length of the string, and leaves no `1` in it. -/
theorem scrRef_length_and_no_one {m : ScrMode} (hm : m ≠ .none) (b : List Symbol) :
    (scrRef m b).length = b.length ∧ Symbol.one ∉ scrRef m b := by
  obtain ⟨hscan, hlen⟩ := scan_ok hm b scanOk_init
  rw [scrRef_eq_scan]
  exact ⟨hlen.trans (Nat.zero_add _), hscan.no_one⟩

/-- Settles O52. -/
theorem scramblersKeepLengthAndLeaveNoOne : Obligations.ScramblersKeepLengthAndLeaveNoOne := by
  intro b _
  obtain ⟨hlenB, honeB⟩ := scrRef_length_and_no_one (m := .b8zs) (by decide) b
  obtain ⟨hlenH, honeH⟩ := scrRef_length_and_no_one (m := .hdb3) (by decide) b
  exact ⟨hlenB, hlenH, honeB, honeH⟩

/-- R102: in an open scrambled frame the beats carry the scan but for its last N symbols, which the line holds. -/
theorem inFrame_lag {k : Scheme} {m : ScrMode} {v : Scan} {t : State} (h : InFrame k m v t) (hm : m ≠ .none) :
    t.q.flatMap beatSymbols = v.out.take (v.out.length - depth m) ∧
      t.dl = v.out.drop (v.out.length - depth m) := by
  obtain ⟨sent, hscan, hsent, hfull⟩ := h.sent
  have hlen : sent.length = v.out.length - depth m := by
    have hle := (h.line hm).length_le
    rw [hscan.out, List.length_append]
    rcases hfull with rfl | hfull
    · rw [List.length_nil]; omega
    · omega
  rw [hsent.beats.symbols, ← hlen, hscan.out, List.take_left, List.drop_left]
  exact ⟨rfl, rfl⟩

/-- Settles O51: the open frame is the one from reset, in the context of the state. -/
theorem scrambledFrameLagsByItsDepth : Obligations.ScrambledFrameLagsByItsDepth := by
  intro s m b hm hb
  obtain ⟨u, hu, -, hframe⟩ := inFrame_of_start (k := .ami) (m := m) (.inr rfl) (accepts_of_binary hb)
  obtain ⟨hsent, hheld⟩ := inFrame_lag hframe hm
  rw [← scrRef_eq_scan, (scrRef_length_and_no_one hm b).1] at hsent hheld
  exact ⟨_, u.q, performAll_start_from_reset hu s, rfl, hsent, hheld⟩

end Sys2Proof.Proofs

/-! PROOFS of the statements about the line encoder (spec/42_line_encoder.md): one symbol of a plain frame under each
scheme, and the reference function `ENCODE_k`. -/

/-! ## The reference function, one symbol at a time (R129 to R131) -/

namespace Sys2Proof.Proofs

open Sys2Proof.Machine Sys2Proof.Laws

theorem neg_neg_level (L : Level) : neg (neg L) = L := by cases L <;> rfl

theorem neg_ne_zero {L : Level} (hL : L ≠ .zero) : neg L ≠ .zero := by
  revert hL
  cases L <;> decide

theorem neg_ne_self {L : Level} (hL : L ≠ .zero) : neg L ≠ L := by
  revert hL
  cases L <;> decide

/-- R130: whatever the symbol, `ENCODE_k` encodes it by itself and goes on with the level kept or inverted. This is
`encodeFrom_cons` without the alphabet, and so without the registers of the encoder. -/
theorem encodeFrom_cons_any (k : Scheme) (L : Level) (pos : Bool) (d : Symbol) :
    ∃ L' pos', (L' = L ∨ L' = neg L) ∧
      ∀ t, encodeFrom k L pos (d :: t) = encodeFrom k L pos [d] ++ encodeFrom k L' pos' t := by
  cases k with
  | nrzL => exact ⟨L, pos, .inl rfl, fun _ => rfl⟩
  | nrzI =>
    by_cases hd : d = .one
    · exact ⟨neg L, pos, .inr rfl, fun _ => by simp [encodeFrom, hd]⟩
    · exact ⟨L, pos, .inl rfl, fun _ => by simp [encodeFrom, hd]⟩
  | manchester => exact ⟨L, pos, .inl rfl, fun _ => by simp [encodeFrom]⟩
  | diffManchester =>
    by_cases hd : d = .zero
    · exact ⟨L, pos, .inl rfl, fun _ => by simp [encodeFrom, hd]⟩
    · exact ⟨neg L, pos, .inr rfl, fun _ => by simp [encodeFrom, hd]⟩
  | ami => exact ⟨L, amiAfter d pos, .inl rfl, fun _ => by cases d <;> rfl⟩

/-! ### Counts and values (R129) -/

/-- R129: the levels of one symbol. -/
def levelCount (k : Scheme) : Nat := if k = .manchester ∨ k = .diffManchester then 2 else 1

theorem encodeFrom_singleton_length (k : Scheme) (L : Level) (pos : Bool) (d : Symbol) :
    (encodeFrom k L pos [d]).length = levelCount k := by
  cases k <;> cases d <;> rfl

theorem encodeFrom_length (k : Scheme) (t : List Symbol) :
    ∀ (L : Level) (pos : Bool), (encodeFrom k L pos t).length = levelCount k * t.length := by
  induction t with
  | nil => intro _ _; rfl
  | cons d t ih =>
    intro L pos
    obtain ⟨L', pos', -, hcons⟩ := encodeFrom_cons_any k L pos d
    rw [hcons, List.length_append, encodeFrom_singleton_length, ih, List.length_cons, Nat.mul_succ, Nat.add_comm]

/-- R129: a scheme other than AMI sends `+1`, `-1`, its level or the inverse of its level. -/
theorem zero_notMem_encodeFrom_singleton {k : Scheme} {L : Level} (hk : k ≠ .ami) (hL : L ≠ .zero) (pos : Bool)
    (d : Symbol) : Level.zero ∉ encodeFrom k L pos [d] := by
  have hneg : neg L ≠ .zero := neg_ne_zero hL
  cases k with
  | nrzL => cases d <;> simp [encodeFrom]
  | nrzI => cases d <;> simp [encodeFrom, hL.symm, hneg.symm]
  | manchester => cases d <;> simp [encodeFrom]
  | diffManchester => cases d <;> simp [encodeFrom, hL.symm, hneg.symm]
  | ami => exact absurd rfl hk

theorem zero_notMem_encodeFrom {k : Scheme} (hk : k ≠ .ami) (t : List Symbol) :
    ∀ {L : Level} (pos : Bool), L ≠ .zero → Level.zero ∉ encodeFrom k L pos t := by
  induction t with
  | nil => intro _ _ _; exact List.not_mem_nil
  | cons d t ih =>
    intro L pos hL
    obtain ⟨L', pos', hL', hcons⟩ := encodeFrom_cons_any k L pos d
    have hne : L' ≠ .zero := by
      rcases hL' with rfl | rfl
      · exact hL
      · exact neg_ne_zero hL
    rw [hcons, List.mem_append, not_or]
    exact ⟨zero_notMem_encodeFrom_singleton hk hL pos d, ih pos' hne⟩

/-- Settles O53, by induction on the string from any level but 0. -/
theorem levelsPerSymbol : Obligations.LevelsPerSymbol := by
  intro k t
  refine ⟨?_, fun hk => zero_notMem_encodeFrom hk t false (by decide)⟩
  rw [encodeRef, encodeFrom_length, levelCount, ite_mul, Nat.one_mul]

/-! ### Differential Manchester transitions (R131) -/

/-- R131 for symbol `i` of a string, which is `d`: its two levels in `levels` differ, and the first differs from the level
before it exactly when `d` is `0`. `carried` is the level before the first symbol. -/
def TransitionsAt (carried : Level) (levels : List Level) (i : Nat) (d : Symbol) : Prop :=
  ∃ before first second,
    (carried :: levels)[2 * i]? = some before ∧ levels[2 * i]? = some first ∧ levels[2 * i + 1]? = some second ∧
      first ≠ second ∧ (first ≠ before ↔ d = .zero)

theorem transitionsAt_zero {L a b : Level} {ls : List Level} {d : Symbol} (hmid : a ≠ b) (hstart : a ≠ L ↔ d = .zero) :
    TransitionsAt L (a :: b :: ls) 0 d :=
  ⟨L, a, b, rfl, rfl, rfl, hmid, hstart⟩

/-- The second level of a symbol is the one before the next symbol. -/
theorem transitionsAt_succ {L a b : Level} {ls : List Level} {i : Nat} {d : Symbol} (h : TransitionsAt b ls i d) :
    TransitionsAt L (a :: b :: ls) (i + 1) d := h

/-- R124: a symbol ends on the level carried to the next, and starts on its inverse. -/
theorem encodeFrom_diffManchester_cons {L : Level} (hL : L ≠ .zero) (pos : Bool) (d : Symbol) (t : List Symbol) :
    ∃ L', L' ≠ .zero ∧ (neg L' ≠ L ↔ d = .zero) ∧
      encodeFrom .diffManchester L pos (d :: t) = neg L' :: L' :: encodeFrom .diffManchester L' pos t := by
  by_cases hd : d = .zero
  · exact ⟨L, hL, by simp [hd, neg_ne_self hL], by simp [encodeFrom, hd]⟩
  · exact ⟨neg L, neg_ne_zero hL, by simp [hd, neg_neg_level], by simp [encodeFrom, hd, neg_neg_level]⟩

theorem encodeFrom_transitionsAt (pos : Bool) (t : List Symbol) :
    ∀ {L : Level} {i : Nat} {d : Symbol}, L ≠ .zero → t[i]? = some d →
      TransitionsAt L (encodeFrom .diffManchester L pos t) i d := by
  induction t with
  | nil => intro _ _ _ _ h; cases h
  | cons c t ih =>
    intro L i d hL h
    obtain ⟨L', hL', hstart, hcons⟩ := encodeFrom_diffManchester_cons hL pos c t
    rw [hcons]
    cases i with
    | zero =>
      obtain rfl : c = d := Option.some.inj h
      exact transitionsAt_zero (neg_ne_self hL') hstart
    | succ i => exact transitionsAt_succ (ih hL' h)

/-- Settles O54. -/
theorem diffManchesterTransitions : Obligations.DiffManchesterTransitions :=
  fun t _ _ _ h => encodeFrom_transitionsAt false t (by decide) h

end Sys2Proof.Proofs

/-! ## One symbol of a plain frame (R121 to R128) -/

namespace Sys2Proof.Proofs

open Sys2Proof.Machine Sys2Proof.Laws

theorem accepts_of_encodable {k : Scheme} {d : Symbol} (hd : Laws.Encodable k d) :
    accepts k.code (ScrMode.code .none) d = true := by
  rw [accepts_iff]
  rcases hd with rfl | rfl | rfl
  · exact .inr (.inr ⟨rfl, rfl⟩)
  · exact .inl rfl
  · exact .inr (.inl rfl)

theorem beatLevels_injective {d : Symbol} {ls ls' : Levels} (h : beatLevels (.data d ls) = beatLevels (.data d ls')) :
    ls = ls' := by
  cases ls <;> cases ls' <;> simp_all [beatLevels]

theorem neg_lineLevel (lvl : Bool) : neg (lineLevel lvl) = if lvl then .pos else .neg := by cases lvl <;> rfl

section

variable {k : Scheme} {d : Symbol} {s : State} (ha : s.fsm = .active) (hk : s.scheme = k.code)
  (hs : s.scr = ScrMode.code .none)
include ha hk hs

/-- R89, R101: in a frame without a scrambler a SYM command counts its symbol and runs the encoder on it. -/
theorem exec_sym_plain (hd : Laws.Encodable k d) : exec (symInstr d) s = enc d (countSym s) := by
  have hacc : accepts s.scheme s.scr d = true := by rw [hk, hs]; exact accepts_of_encodable hd
  rw [exec_symInstr, symCommand_unscrambled ha hs hacc]

/-- R120: the beat of the symbol has the levels that the reference function gives it from the encoder's registers. -/
theorem exec_sym_plain_levels (hd : Laws.Encodable k d) {ls : Levels}
    (hls : encodeFrom k (lineLevel s.encLvl) s.amiPos [d] = beatLevels (.data d ls)) :
    exec (symInstr d) s = .next (encoded k d ls (countSym s)) := by
  obtain ⟨ls', henc, hlevels⟩ := enc_next (s := countSym s) hk hd
  obtain rfl : ls' = ls := beatLevels_injective (hlevels.trans hls)
  rw [exec_sym_plain ha hk hs hd, henc]

end

/-- Settles O20. -/
theorem symNrzL : Obligations.SymNrzL :=
  fun _ ha hk hs =>
    ⟨exec_sym_plain_levels (k := .nrzL) (d := .zero) ha hk hs (.inr (.inl rfl)) rfl,
      exec_sym_plain_levels (k := .nrzL) (d := .one) ha hk hs (.inr (.inr rfl)) rfl⟩

/-- Settles O21: the level after a `1` is the inverse of the one before it. -/
theorem symNrzI : Obligations.SymNrzI :=
  fun s ha hk hs =>
    ⟨exec_sym_plain_levels (k := .nrzI) (d := .zero) ha hk hs (.inr (.inl rfl)) rfl,
      exec_sym_plain_levels (k := .nrzI) (d := .one) ha hk hs (.inr (.inr rfl))
        (congrArg (fun L => [L]) (neg_lineLevel s.encLvl))⟩

/-- Settles O22. -/
theorem symManchester : Obligations.SymManchester :=
  fun _ ha hk hs =>
    ⟨exec_sym_plain_levels (k := .manchester) (d := .zero) ha hk hs (.inr (.inl rfl)) rfl,
      exec_sym_plain_levels (k := .manchester) (d := .one) ha hk hs (.inr (.inr rfl)) rfl⟩

/-- Settles O23: for each symbol, at either level carried in. -/
theorem symDiffManchester : Obligations.SymDiffManchester := by
  intro s ha hk hs
  refine ⟨exec_sym_plain_levels (k := .diffManchester) (d := .zero) ha hk hs (.inr (.inl rfl)) ?_,
    exec_sym_plain_levels (k := .diffManchester) (d := .one) ha hk hs (.inr (.inr rfl)) ?_⟩
  · cases s.encLvl <;> rfl
  · cases s.encLvl <;> rfl

/-- R125 to R128: a symbol of a plain AMI frame, by the table of AMI. -/
theorem exec_sym_plainAmi {s : State} (ha : s.fsm = .active) (hk : s.scheme = Scheme.code .ami)
    (hs : s.scr = ScrMode.code .none) (d : Symbol) :
    exec (symInstr d) s =
      .next { s with symCnt := s.symCnt + 1, amiPos := amiAfter d s.amiPos, q := s.q ++ [amiBeat d s.amiPos] } := by
  rw [exec_sym_plain ha hk hs (.inl rfl)]
  exact enc_ami (s := countSym s) d hk

/-- Settles O24: each of the four symbols, and a `1` at either value of `ami_pos`. -/
theorem symPlainAmi : Obligations.SymPlainAmi := by
  intro s ha hk hs
  have hsym := exec_sym_plainAmi ha hk hs
  have hone := hsym .one
  refine ⟨hsym .zero, fun hpos => ?_, fun hpos => ?_, hsym .plus, hsym .minus⟩
  · rwa [hpos] at hone
  · rwa [hpos] at hone

end Sys2Proof.Proofs

/-! PROOFS of the statements about errors (spec/60_exceptions.md): what a command raises and what it does in ERROR, the
clock edge that accepts a malformed word, and the one that accepts nothing. -/

/-! ## Error entry and the commands in ERROR (R141, R142, R146) -/

namespace Sys2Proof.Proofs

open Sys2Proof.Machine Sys2Proof.Laws

theorem malformedWord_of_error {s : State} (hs : s.fsm = .error) : malformedWord s = s := by rw [malformedWord, hs]

theorem malformedWord_of_ne_error {s : State} (hs : s.fsm ≠ .error) :
    malformedWord s = errorEntry .invalidCommand s.symCnt s := by
  cases hf : s.fsm with
  | error => exact absurd hf hs
  | idle => rw [malformedWord, hf]
  | active => rw [malformedWord, hf]

theorem enc_fsm {d : Symbol} {s t : State} (h : enc d s = .next t) : t.fsm = s.fsm := by
  obtain ⟨k, ls, -, -, rfl, -⟩ := enc_spec h
  rfl

/-- R89, R102: neither the encoder nor a scrambler writes `fsm`. -/
theorem acceptedSymbol_fsm {d : Symbol} {s t : State} (h : acceptedSymbol d s = .next t) : t.fsm = s.fsm := by
  rcases acceptedSymbol_spec h with ⟨-, henc⟩ | ⟨m, -, -, -, hthrough⟩
  · exact enc_fsm henc
  · rcases throughLine_spec hthrough with ⟨-, -, rfl⟩ | ⟨-, -, rfl⟩ | ⟨x, rest, -, -, -, henc⟩
    · exact (scramblerUpdate_only m d s).fsm
    · exact (scramblerUpdate_only m d s).fsm
    · exact (enc_fsm henc).trans (scramblerUpdate_only m d { s with dl := rest }).fsm

/-- R84: a START that ends in ERROR has raised InvalidScheme over the values it gave the frame. -/
theorem execStart_raises {m : BitVec 2} {k : BitVec 3} {s t : State} (h : execStart m k s = .next t)
    (ht : t.fsm = .error) : t = errorEntry .invalidScheme 0 (openFrame m k s) := by
  cases hvalid : validConfig k m with
  | true => rw [execStart_valid hvalid] at h; cases h; cases ht
  | false => rw [execStart_invalid hvalid] at h; exact (Host.Outcome.next.inj h).symm

/-- R86, R88: a SYM that enters ERROR counts its symbol and raises at the count before. -/
theorem symCommand_raises {d : Symbol} {s t : State} (h : symCommand d s = .next t) (hs : s.fsm ≠ .error)
    (ht : t.fsm = .error) : ∃ e, e ≠ ErrCode.none ∧ t = errorEntry e s.symCnt (countSym s) := by
  rcases symCommand_spec h with ⟨-, rfl⟩ | ⟨he, -⟩ | ⟨-, -, rfl⟩ | ⟨-, -, hacc⟩
  · exact ⟨.invalidCommand, nofun, rfl⟩
  · exact absurd he hs
  · exact ⟨.invalidSymbol, nofun, rfl⟩
  · exact absurd ((acceptedSymbol_fsm hacc).symm.trans ht) hs

/-- R90 to R92: an END that completes ends in IDLE, so it never enters ERROR. -/
theorem execEnd_fsm {s t : State} (h : execEnd s = .next t) : t.fsm = .idle := by
  rcases execEnd_spec h with ⟨hs, rfl⟩ | ⟨-, rfl⟩ | ⟨-, u, -, rfl⟩
  · exact hs
  · rfl
  · rfl

/-- R141: a word that enters ERROR takes the step of error entry, over the START values of the frame, over the state
with the symbol counted, or over the state as it is. -/
theorem perform_raises {c : Word} {s t : State} (h : perform c s = .next t) (hs : s.fsm ≠ .error)
    (ht : t.fsm = .error) :
    ∃ e idx u, e ≠ ErrCode.none ∧ t = errorEntry e idx u ∧
      ((∃ m k, decode c = .instr (.start m k) ∧ u = openFrame m k s) ∨ u = countSym s ∨ u = s) := by
  rcases perform_spec h with ⟨i, hc, hexec⟩ | ⟨op, -, rfl⟩
  · rcases instr_cases i with rfl | ⟨m, k, rfl⟩ | ⟨d, rfl⟩ | rfl
    · cases hexec
      exact absurd ht hs
    · exact ⟨.invalidScheme, _, _, nofun, execStart_raises hexec ht, .inl ⟨m, k, hc, rfl⟩⟩
    · obtain ⟨e, he, rfl⟩ := symCommand_raises (exec_symInstr d s ▸ hexec) hs ht
      exact ⟨e, _, _, he, rfl, .inr (.inl rfl)⟩
    · exact nomatch (execEnd_fsm hexec).symm.trans ht
  · exact ⟨.invalidCommand, _, _, nofun, malformedWord_of_ne_error hs, .inr (.inr rfl)⟩

/-- Settles O36: error entry writes four registers, and what it is taken over has the beats of `s`. -/
theorem raisingCommandEmitsNothing : Obligations.RaisingCommandEmitsNothing := by
  intro s t c h hs ht
  obtain ⟨e, idx, u, he, rfl, ⟨m, k, hc, rfl⟩ | rfl | rfl⟩ := perform_raises h hs ht
  · exact ⟨rfl, rfl, he, .inl ⟨m, k, hc⟩⟩
  · exact ⟨rfl, rfl, he, .inr ⟨rfl, rfl, rfl, rfl, rfl, rfl, rfl⟩⟩
  · exact ⟨rfl, rfl, he, .inr ⟨rfl, rfl, rfl, rfl, rfl, rfl, rfl⟩⟩

/-- Settles O34: NOP and a malformed word leave the state, a SYM counts, END closes the frame. -/
theorem firstErrorWins : Obligations.FirstErrorWins := by
  intro s c hs
  cases hc : decode c with
  | malformed op =>
    rw [perform_malformed hc, malformedWord_of_error hs]
    exact ⟨s, rfl, .inr ⟨rfl, rfl, nofun, fun _ => ⟨hs, rfl⟩⟩⟩
  | instr i =>
    rw [perform_instr hc]
    rcases instr_cases i with rfl | ⟨m, k, rfl⟩ | ⟨d, rfl⟩ | rfl
    · exact ⟨s, rfl, .inr ⟨rfl, rfl, nofun, fun _ => ⟨hs, rfl⟩⟩⟩
    · obtain ⟨t, hstart, -⟩ := execStart_next m k s
      exact ⟨t, hstart, .inl ⟨m, k, rfl⟩⟩
    · have hne : Decoded.instr (symInstr d) ≠ .instr .endFrame := by cases d <;> exact nofun
      exact ⟨countSym s, symInErrorOnlyCounts s d hs, .inr ⟨rfl, rfl, fun he => absurd he hne, fun _ => ⟨hs, rfl⟩⟩⟩
    · exact ⟨_, execEnd_error hs, .inr ⟨rfl, rfl, fun _ => rfl, fun hne => absurd rfl hne⟩⟩

end Sys2Proof.Proofs

/-! ## The clock edge with a malformed word, and with none (R168 to R170) -/

namespace Sys2Proof.Proofs

open Sys2Proof.Machine Sys2Proof.Laws

/-- R168, R170: a valid word is accepted while `Q` holds at most one beat. -/
theorem accepted_of_ready {s : State} (hrst : (pins s).rst = false) (hvalid : (pins s).cmdValid = true)
    (hq : s.q.length ≤ 1) : accepted s = some (pins s).cmd := by
  have hready : cmdReady s = true := decide_eq_true hq
  simp [accepted, hrst, hvalid, hready]

/-- R169: the end of a cycle empties a queue of at most one beat. -/
theorem endCycle_of_ready {s : State} (hq : s.q.length ≤ 1) :
    endCycle s = { s with q := [], presented := s.presented ++ s.q, host := s.host.tail } := by
  have htail : s.q.tail = [] := List.eq_nil_of_length_eq_zero (by rw [List.length_tail]; omega)
  rw [endCycle, htail, List.take_of_length_le hq]

/-- R170: `cmd_ready` is 0 while `Q` holds two beats or more. -/
theorem cmdReady_of_busy {s : State} (hq : 2 ≤ s.q.length) : cmdReady s = false := decide_eq_false (by omega)

theorem accepted_eq_none {s : State} (h : (pins s).cmdValid = false ∨ 2 ≤ s.q.length) : accepted s = none := by
  rcases h with hvalid | hq
  · simp [accepted, hvalid]
  · simp [accepted, cmdReady_of_busy hq]

/-- R168: the clock edge at which nothing is accepted. -/
theorem step_of_not_accepted {s : State} (hrst : (pins s).rst = false) (hacc : accepted s = none) :
    step s = .next (endCycle s) := by
  rw [step, hrst, hacc]
  rfl

/-- Settles O10: the malformed word acts on the state whose one beat has left, with the `fsm` and `sym_cnt` of `s`. -/
theorem stepOnMalformedWord : Obligations.StepOnMalformedWord := by
  intro s op hrst hvalid hq hc
  have hstep : step s = .next (malformedWord (endCycle s)) :=
    (step_of_accepted (accepted_of_ready hrst hvalid hq)).trans (perform_malformed hc _)
  rw [hstep, endCycle_of_ready hq]
  exact ⟨fun he => congrArg _ (malformedWord_of_error he), fun hne => congrArg _ (malformedWord_of_ne_error hne)⟩

/-- Settles O11. -/
theorem cycleWithoutAcceptanceOnlyPresents : Obligations.CycleWithoutAcceptanceOnlyPresents := by
  intro s hrst h
  have hacc : accepted s = none := accepted_eq_none h
  exact ⟨cmdReady_of_busy, hacc, step_of_not_accepted hrst hacc⟩

end Sys2Proof.Proofs

/-! PROOFS of the statements about reset and hazards (spec/70_reset_and_hazards.md): the reset values, the reset edge, the
invariant at reset, and the clock edge that runs a placed word. -/

/-! ## Reset (R160 to R162) -/

namespace Sys2Proof.Proofs

open Sys2Proof.Machine Sys2Proof.Laws

/-- Settles O1: the registers stand in the definition of the reset state, and the ports are computed from them. -/
theorem resetLeavesEveryRegisterZero : Obligations.ResetLeavesEveryRegisterZero := by
  have hstatus : (ports State.reset).status = 0x00000000#32 := by decide
  have hdline : (ports State.reset).dline = 0x0000#16 := by decide
  exact ⟨rfl, rfl, hstatus, hdline, rfl, rfl, rfl⟩

/-- R162: no word is accepted at a reset edge. -/
theorem accepted_of_rst {s : State} (hrst : (pins s).rst = true) : accepted s = none := by
  simp [accepted, hrst]

/-- R160: with `rst = 1` the clock edge is a reset edge. -/
theorem step_of_rst {s : State} (hrst : (pins s).rst = true) : step s = .next (resetEdge s) := by
  rw [step, if_pos hrst]

/-- R169: with `Q` empty no beat is presented. -/
theorem outValid_of_empty {s : State} (hq : s.q = []) : (ports s).outValid = false := by
  simp [ports, hq]

/-- R170: with `Q` empty the block is ready for a command. -/
theorem cmdReady_of_empty {s : State} (hq : s.q = []) : (ports s).cmdReady = true := by
  simp [ports, cmdReady, hq]

/-- Settles O2: the edge leaves `resetEdge s`, whose empty `Q` gives the two ports. -/
theorem resetEdgeClearsRegistersAndQueue : Obligations.ResetEdgeClearsRegistersAndQueue := by
  intro s hrst
  have hq : (resetEdge s).q = [] := resetEdge_q s
  exact ⟨accepted_of_rst hrst, resetEdge s, step_of_rst hrst, resetEdge_registers s, hq, rfl, rfl,
    outValid_of_empty hq, cmdReady_of_empty hq⟩

/-- Settles O41: the invariant does not read `host`, so that of the reset state serves every schedule. -/
theorem invHoldsAtReset : Obligations.InvHoldsAtReset :=
  fun _ => inv_iff_registers.mpr ⟨inv_reset, inv_reset.queue⟩

end Sys2Proof.Proofs

/-! ## The clock edge with a placed word (R168 to R170) -/

namespace Sys2Proof.Proofs

open Sys2Proof.Machine Sys2Proof.Laws

/-- A table word that reads as a command is a word that the decoder reads as that command. -/
theorem decodeTableWord_eq_some {nbits w : Nat} {i : Instr} (h : decodeTableWord nbits w = some i) :
    decode (tableWord nbits w) = .instr i := by
  unfold decodeTableWord at h
  split at h
  · rw [‹decode _ = _›, Option.some.inj h]
  · cases h

/-- R170: the queue that placing a word leaves is short enough for `cmd_ready`. -/
theorem withFetchWord_q_length (s : State) (nbits w : Nat) : (s.withFetchWord nbits w).q.length ≤ 1 := by
  rw [State.withFetchWord, presentWord_q, untilReady_q, List.length_drop]
  omega

/-- R169: placing a word only presents beats, oldest first: none is lost, doubled or moved. -/
theorem withFetchWord_observed (s : State) (nbits w : Nat) : observed (s.withFetchWord nbits w) = observed s := by
  simp [observed, State.withFetchWord]

/-- The state that runs the placed word is `s` with its queue presented and its host one cycle on. -/
theorem withFetchWord_cycle (s : State) (nbits w : Nat) :
    { s.withFetchWord nbits w with
      q := [], presented := observed (s.withFetchWord nbits w), host := (s.withFetchWord nbits w).host.tail } =
      { s with q := [], presented := s.presented ++ s.q, host := s.host.tail } := by
  rw [withFetchWord_observed]
  rfl

/-- Settles O9: the placed word is a presented word at a ready cycle, so the step is that of `StepRunsDecodedCommand`. -/
theorem stepRunsPlacedWord : Obligations.StepRunsPlacedWord := by
  intro s nbits w i hdecode
  have hready : (s.withFetchWord nbits w).q.length ≤ 1 := withFetchWord_q_length s nbits w
  have hstep := stepRunsDecodedCommand (s.withFetchWord nbits w) i rfl rfl hready (decodeTableWord_eq_some hdecode)
  exact hstep.trans (congrArg (exec i) (withFetchWord_cycle s nbits w))

end Sys2Proof.Proofs
